-- ==== Sys2Proof/Word.lean ====
section
/-! DEFINITION. The words of the codec: 00_scope.md R8 and R11. Every value is unsigned; bit 0 is the
least significant bit, so `v[hi:lo]` is `v.extractLsb' lo (hi - lo + 1)`. -/

namespace Sys2Proof

/-- A byte, a pixel channel or a format code: 8 bits (R8). -/
abbrev Byte := BitVec 8

/-- A command word, a 16-bit packed field or a palette entry: 16 bits (R8, R60). -/
abbrev Half := BitVec 16

/-- A finite string of characters (10_state.md R21, R23), as the list of them (log 6). -/
abbrev Text := List Char

end Sys2Proof
end

