-- ==== Sys2Proof/Machine/Transaction.lean ====
section
/-! DEFINITION. What a transaction is made of: the request with its operand fields (10_state.md R21), the
response with its status, result and info record (R23, 60_exceptions.md R170), and the mark of the input
buffers the host changed in between (70_reset_and_hazards.md R195). -/

namespace Sys2Proof.Machine

/-- A pixel of four 8-bit channels (10_state.md R26). -/
structure Pixel where
  r : Byte
  g : Byte
  b : Byte
  a : Byte
  deriving DecidableEq, Repr, Inhabited

/-- A PixelBuffer as it is presented (10_state.md R27): `pixels` is row-major, pixel i at index i. Whether
it holds exactly width * height pixels is checked by ENCODE (41_encode.md R110), not by the type. -/
structure PixelBuffer where
  width : Nat
  height : Nat
  pixels : List Pixel
  deriving DecidableEq, Repr, Inhabited

/-- The pixel count N = W * H (00_scope.md R13). -/
def PixelBuffer.count (p : PixelBuffer) : Nat := p.width * p.height

/-- The metadata record of a DECODE result (10_state.md R29). -/
structure Metadata where
  name : Text
  width : Nat
  height : Nat
  deriving DecidableEq, Repr, Inhabited

/-- The five operations (00_scope.md R4, 30_encoding.md R61). -/
inductive Operation where
  | encode
  | decode
  | bitsPerPixel
  | nameToCode
  | codeToName
  deriving DecidableEq, Repr

/-- The selector value of an operation (30_encoding.md R61). -/
def Operation.selector : Operation → Byte
  | .encode => 0x01#8
  | .decode => 0x02#8
  | .bitsPerPixel => 0x03#8
  | .nameToCode => 0x04#8
  | .codeToName => 0x05#8

/-- The operation an `op` byte selects; none where the value is reserved (30_encoding.md R61). -/
def Operation.ofSelector (op : Byte) : Option Operation :=
  if op = 0x01#8 then some .encode
  else if op = 0x02#8 then some .decode
  else if op = 0x03#8 then some .bitsPerPixel
  else if op = 0x04#8 then some .nameToCode
  else if op = 0x05#8 then some .codeToName
  else none

/-- The operand fields whose absence makes a request no transaction (60_exceptions.md R171). The palette
is not among them: an absent palette is an allowed request shape. -/
inductive OperandField where
  | pixels
  | data
  | width
  | height
  | name
  | colorBits
  | sizeBits
  deriving DecidableEq, Repr

/-- The input buffers of a request that the host must leave alone until the response
(70_reset_and_hazards.md R195). -/
inductive InputBuffer where
  | pixels
  | data
  | palette
  | name
  deriving DecidableEq, Repr

/-- A request: the command word and the operand fields of 10_state.md R21. A field is `none` where the
host presented none. -/
structure Request where
  cmd : Half
  pixels : Option PixelBuffer
  data : Option (List Byte)
  width : Option Nat
  height : Option Nat
  palette : Option (List Half)
  name : Option Text
  colorBits : Option Byte
  sizeBits : Option Byte
  deriving DecidableEq, Repr

/-- `op = cmd[15:8]` of a request (30_encoding.md R60). -/
def Request.op (r : Request) : Byte := r.cmd.extractLsb' 8 8

/-- `fmt = cmd[7:0]` of a request (30_encoding.md R60). -/
def Request.fmt (r : Request) : Byte := r.cmd.extractLsb' 0 8

/-- A request with command word `cmd` and no operand field. -/
def Request.bare (cmd : Half) : Request :=
  { cmd := cmd, pixels := none, data := none, width := none, height := none, palette := none,
    name := none, colorBits := none, sizeBits := none }

/-- A transaction in progress (60_exceptions.md R180): the request, and the input buffers of it that the
host changed since it presented it (70_reset_and_hazards.md R195). -/
structure Transaction where
  request : Request
  changed : List InputBuffer
  deriving DecidableEq, Repr

/-- Whether the host changed "any input buffer of that request", one that the operation reads or not
(R195, log 3). -/
def Transaction.disturbed (t : Transaction) : Bool := !t.changed.isEmpty

/-- The result of a successful transaction (10_state.md R23). -/
inductive Result where
  /-- ENCODE: the packed bytes. -/
  | bytes (data : List Byte)
  /-- DECODE: the PixelBuffer and its metadata record. -/
  | picture (buffer : PixelBuffer) (metadata : Metadata)
  /-- BITS_PER_PIXEL: a natural number. -/
  | bits (n : Nat)
  /-- NAME2CODE: an 8-bit format code. -/
  | code (c : Byte)
  /-- CODE2NAME: a string. -/
  | label (t : Text)
  deriving DecidableEq, Repr, Inhabited

/-- The errors with the info record each carries (60_exceptions.md R170). -/
inductive ErrorReport where
  /-- E_ILLEGAL_OP, with the reserved `op`. -/
  | illegalOp (op : Byte)
  /-- E_UNSUPPORTED_FORMAT, with the `op` and `fmt` of the command. -/
  | unsupportedFormat (op fmt : Byte)
  /-- E_DIMENSION, with W, H and the pixel group G(fmt). -/
  | dimension (width height group : Nat)
  /-- E_LENGTH, with the expected and the actual length. -/
  | length (expected actual : Nat)
  /-- E_MISSING_PALETTE, with the `fmt`. -/
  | missingPalette (fmt : Byte)
  /-- E_PALETTE_INDEX, with the pixel, its index and the palette length. -/
  | paletteIndex (pixel index length : Nat)
  deriving DecidableEq, Repr, Inhabited

/-- The response (10_state.md R23): a result where the status is OK, an info record otherwise. -/
inductive Response where
  | ok (result : Result)
  | error (report : ErrorReport)
  deriving DecidableEq, Repr, Inhabited

end Sys2Proof.Machine
end

