-- ==== Sys2Proof/Syntax.lean ====
section
/-! DEFINITION. The instruction set: 30_encoding.md R64, one constructor per row of
spec/opcode_table.json. The operands that travel beside the command word (pixels, data, width, height,
palette, name, code bits) belong to the request (10_state.md R21), not to the instruction. -/

namespace Sys2Proof

/-- The 25 instructions (R64). `bpp` holds its `fmt` operand; `n2c` and `c2n` hold the byte `cmd[7:0]`
that they ignore (R61), so that no bit of a command word is lost. -/
inductive Instr where
  | encOneBpp
  | encRgba16
  | encRgba32
  | encIa4
  | encIa8
  | encIa16
  | encI4
  | encI4Alt
  | encI8
  | encCi4
  | encCi8
  | decOneBpp
  | decRgba16
  | decRgba32
  | decIa4
  | decIa8
  | decIa16
  | decI4
  | decI4Alt
  | decI8
  | decCi4
  | decCi8
  | bpp (fmt : Byte)
  | n2c (ignored : Byte)
  | c2n (ignored : Byte)
  deriving DecidableEq, Repr

end Sys2Proof
end

