-- ==== Sys2Proof/Decode.lean ====
section
/-! DEFINITION. The command decoder, total on every 16-bit word, and the encoder: 30_encoding.md R60 to
R66 and spec/opcode_table.json. -/

namespace Sys2Proof

/-- What a command word is: an instruction, or a rejection by name (30_encoding.md R65). -/
inductive DecodeResult where
  | instr (i : Instr)
  /-- `op` is 0x00 or 0x06 to 0xFF. -/
  | illegalOp (op : Byte)
  /-- ENCODE with a `fmt` outside the eleven codes of R62. -/
  | reservedEncodeFormat (fmt : Byte)
  /-- DECODE with a `fmt` outside the eleven codes of R62. -/
  | reservedDecodeFormat (fmt : Byte)
  deriving DecidableEq, Repr

/-- The ENCODE instructions by format code (R62, R64), matched by exact 8-bit equality. -/
def encodeInstrs : List (Byte × Instr) :=
  [(0x00#8, .encOneBpp), (0x10#8, .encRgba16), (0x18#8, .encRgba32), (0x40#8, .encCi4),
   (0x48#8, .encCi8), (0x60#8, .encIa4), (0x68#8, .encIa8), (0x70#8, .encIa16), (0x80#8, .encI4),
   (0x88#8, .encI8), (0x90#8, .encI4Alt)]

/-- The DECODE instructions by format code (R62, R64), matched by exact 8-bit equality. -/
def decodeInstrs : List (Byte × Instr) :=
  [(0x00#8, .decOneBpp), (0x10#8, .decRgba16), (0x18#8, .decRgba32), (0x40#8, .decCi4),
   (0x48#8, .decCi8), (0x60#8, .decIa4), (0x68#8, .decIa8), (0x70#8, .decIa16), (0x80#8, .decI4),
   (0x88#8, .decI8), (0x90#8, .decI4Alt)]

/-- Decode by selector and format byte (R61, R64, R65). -/
def decodeFields (op fmt : Byte) : DecodeResult :=
  match Machine.Operation.ofSelector op with
  | some .encode =>
    match encodeInstrs.lookup fmt with
    | some i => .instr i
    | none => .reservedEncodeFormat fmt
  | some .decode =>
    match decodeInstrs.lookup fmt with
    | some i => .instr i
    | none => .reservedDecodeFormat fmt
  | some .bitsPerPixel => .instr (.bpp fmt)
  | some .nameToCode => .instr (.n2c fmt)
  | some .codeToName => .instr (.c2n fmt)
  | none => .illegalOp op

/-- The command decoder: `op = cmd[15:8]`, `fmt = cmd[7:0]` (R60). -/
def decode (cmd : Half) : DecodeResult := decodeFields (cmd.extractLsb' 8 8) (cmd.extractLsb' 0 8)

/-- The operation of an instruction (R64). -/
def Instr.operation : Instr → Machine.Operation
  | .encOneBpp | .encRgba16 | .encRgba32 | .encIa4 | .encIa8 | .encIa16 | .encI4 | .encI4Alt | .encI8
  | .encCi4 | .encCi8 => .encode
  | .decOneBpp | .decRgba16 | .decRgba32 | .decIa4 | .decIa8 | .decIa16 | .decI4 | .decI4Alt | .decI8
  | .decCi4 | .decCi8 => .decode
  | .bpp _ => .bitsPerPixel
  | .n2c _ => .nameToCode
  | .c2n _ => .codeToName

/-- The operation selector and low byte of an instruction's command word (R64). -/
def encodeFields : Instr → Byte × Byte
  | .encOneBpp => (0x01#8, 0x00#8)
  | .encRgba16 => (0x01#8, 0x10#8)
  | .encRgba32 => (0x01#8, 0x18#8)
  | .encIa4 => (0x01#8, 0x60#8)
  | .encIa8 => (0x01#8, 0x68#8)
  | .encIa16 => (0x01#8, 0x70#8)
  | .encI4 => (0x01#8, 0x80#8)
  | .encI4Alt => (0x01#8, 0x90#8)
  | .encI8 => (0x01#8, 0x88#8)
  | .encCi4 => (0x01#8, 0x40#8)
  | .encCi8 => (0x01#8, 0x48#8)
  | .decOneBpp => (0x02#8, 0x00#8)
  | .decRgba16 => (0x02#8, 0x10#8)
  | .decRgba32 => (0x02#8, 0x18#8)
  | .decIa4 => (0x02#8, 0x60#8)
  | .decIa8 => (0x02#8, 0x68#8)
  | .decIa16 => (0x02#8, 0x70#8)
  | .decI4 => (0x02#8, 0x80#8)
  | .decI4Alt => (0x02#8, 0x90#8)
  | .decI8 => (0x02#8, 0x88#8)
  | .decCi4 => (0x02#8, 0x40#8)
  | .decCi8 => (0x02#8, 0x48#8)
  | .bpp fmt => (0x03#8, fmt)
  | .n2c ignored => (0x04#8, ignored)
  | .c2n ignored => (0x05#8, ignored)

/-- The command word of an instruction: the one 16-bit format `op : fmt` (R60, R66). -/
def encode (i : Instr) : Half := (encodeFields i).1 ++ (encodeFields i).2

/-- The instruction the decoder reads from an opcode-table word of `nbits` bits. A command is one 16-bit
word and its bits are numbered as the table numbers them, so the word goes to the decoder as it is; a value
with a bit above bit 15 is no command (R66). -/
def decodeTableWord (nbits w : Nat) : Option Instr :=
  if w % 2 ^ nbits < 2 ^ 16 then
    match decode (BitVec.ofNat 16 (w % 2 ^ nbits)) with
    | .instr i => some i
    | _ => none
  else none

end Sys2Proof
end

