-- ==== Sys2Proof/Machine/Formats.lean ====
section
/-! DEFINITION. The catalog functions: formats, codes, bits per pixel, pixel groups, names and labels
(00_scope.md R3, R9; 30_encoding.md R62, R63; 40_catalog.md R100, R102, R104). -/

namespace Sys2Proof.Machine

/-- The closed set of formats (00_scope.md R3). -/
inductive Format where
  | oneBitAlpha
  | rgba16
  | rgba32
  | ci4
  | ci8
  | ia4
  | ia8
  | ia16
  | i4
  | i8
  deriving DecidableEq, Repr

/-- The color models (00_scope.md R3, 30_encoding.md R63). -/
inductive ColorModel where
  | rgba
  | yuv
  | colorIndexed
  | intensityAlpha
  | intensity
  | unknown
  deriving DecidableEq, Repr

/-- The color model of a format (R3, R62). OneBitAlpha has "none of the hardware models". -/
def Format.colorModel : Format → Option ColorModel
  | .oneBitAlpha => none
  | .rgba16 | .rgba32 => some .rgba
  | .ci4 | .ci8 => some .colorIndexed
  | .ia4 | .ia8 | .ia16 => some .intensityAlpha
  | .i4 | .i8 => some .intensity

/-- The bits per pixel of a format (R3, R62). -/
def Format.bitsPerPixel : Format → Nat
  | .oneBitAlpha => 1
  | .ci4 | .ia4 | .i4 => 4
  | .ci8 | .ia8 | .i8 => 8
  | .rgba16 | .ia16 => 16
  | .rgba32 => 32

/-- The pixel group G of a format: the pixels packed into one byte (R9). -/
def Format.group : Format → Nat
  | .oneBitAlpha => 8
  | .ci4 | .ia4 | .i4 => 2
  | .rgba16 | .rgba32 | .ci8 | .ia8 | .ia16 | .i8 => 1

/-- The eleven format codes (R62). -/
def formatCodes : List (Byte × Format) :=
  [(0x00#8, .oneBitAlpha), (0x10#8, .rgba16), (0x18#8, .rgba32), (0x40#8, .ci4), (0x48#8, .ci8),
   (0x60#8, .ia4), (0x68#8, .ia8), (0x70#8, .ia16), (0x80#8, .i4), (0x88#8, .i8), (0x90#8, .i4)]

/-- The format of a code, by exact 8-bit equality (R62). -/
def formatOfCode (fmt : Byte) : Option Format := formatCodes.lookup fmt

/-- Bits per pixel of a format code; "unknown/reserved codes default to 16 bits" (R100). -/
def bpp (fmt : Byte) : Nat :=
  match formatOfCode fmt with
  | some f => f.bitsPerPixel
  | none => 16

/-- G(fmt) (R9, R62). A reserved code has no pixel group; 1 is never used for one, since every check that
reads G comes after the format check (41_encode.md R110, 42_decode.md R140). -/
def groupSize (fmt : Byte) : Nat :=
  match formatOfCode fmt with
  | some f => f.group
  | none => 1

/-- PackedLen(f, W, H) = ceil(W*H*bpp(f) / 8) (10_state.md R28). -/
def packedLen (fmt : Byte) (width height : Nat) : Nat := (width * height * bpp fmt + 7) / 8

/-- ASCII case folding: 'A' to 'Z' become 'a' to 'z', every other character stays (R102). -/
def foldChar (c : Char) : Char :=
  if 'A'.toNat ≤ c.toNat ∧ c.toNat ≤ 'Z'.toNat then Char.ofNat (c.toNat + 32) else c

/-- fold(s) (R102). -/
def fold (s : Text) : Text := s.map foldChar

/-- The name table (R102). -/
def nameTable : List (Text × Byte) :=
  [(['1', 'b', 'p', 'p'], 0x00#8), (['r', 'g', 'b', 'a', '1', '6'], 0x10#8),
   (['r', 'g', 'b', 'a', '3', '2'], 0x18#8), (['c', 'i', '4'], 0x40#8), (['c', 'i', '8'], 0x48#8),
   (['i', 'a', '4'], 0x60#8), (['i', 'a', '8'], 0x68#8), (['i', 'a', '1', '6'], 0x70#8),
   (['i', '4'], 0x80#8), (['i', '8'], 0x88#8)]

/-- nameToCode (R102): the folded name compared whole; any other string gives 0x10. -/
def nameToCode (name : Text) : Byte :=
  match nameTable.lookup (fold name) with
  | some c => c
  | none => 0x10#8

/-- The color model of a model number (R63). -/
def ColorModel.ofNumber (m : BitVec 3) : ColorModel :=
  if m = 0#3 then .rgba
  else if m = 1#3 then .yuv
  else if m = 2#3 then .colorIndexed
  else if m = 3#3 then .intensityAlpha
  else if m = 4#3 then .intensity
  else .unknown

/-- The label of a color model (R104). -/
def ColorModel.label : ColorModel → Text
  | .rgba => ['R', 'G', 'B', 'A']
  | .yuv => ['Y', 'U', 'V']
  | .colorIndexed => ['C', 'I']
  | .intensityAlpha => ['I', 'A']
  | .intensity => ['I']
  | .unknown => ['U', 'n', 'k', 'n', 'o', 'w', 'n']

/-- The label of a size number (R104). -/
def sizeLabel (s : BitVec 2) : Text :=
  if s = 0#2 then ['4'] else if s = 1#2 then ['8'] else if s = 2#2 then ['1', '6'] else ['3', '2']

/-- codeToName (R104): only `colorBits[2:0]` and `sizeBits[1:0]` are read. -/
def codeToName (colorBits sizeBits : Byte) : Text :=
  (ColorModel.ofNumber (colorBits.extractLsb' 0 3)).label ++ sizeLabel (sizeBits.extractLsb' 0 2)

/-- The name in the metadata of a DECODE result: codeToName(fmt >> 5, (fmt >> 3) & 3) (10_state.md R29). -/
def metadataName (fmt : Byte) : Text := codeToName (fmt >>> 5) ((fmt >>> 3) &&& 3#8)

end Sys2Proof.Machine
end

