-- ==== Sys2Proof/Machine/Operands.lean ====
section
/-! DEFINITION. The operand forms: which fields of a request an operation reads (10_state.md R21,
60_exceptions.md R171), and the reads of the three address spaces (00_scope.md R13, 20_memory.md R40 to
R46). A read that would fall outside its space gives a zero that no transaction ever sees, since the checks
of 41_encode.md R110 and 42_decode.md R140 come before the first read (log 7). -/

namespace Sys2Proof.Machine

/-- A field of a request, or the name of the field it lacks (R171). -/
def requireField {α : Type} (field : OperandField) : Option α → Except OperandField α
  | some v => .ok v
  | none => .error field

/-- The operand of ENCODE: the PixelBuffer (R21). -/
def encodeOperand (r : Request) : Except OperandField PixelBuffer := requireField .pixels r.pixels

/-- The operands of DECODE (R21). -/
structure DecodeOperands where
  data : List Byte
  width : Nat
  height : Nat
  palette : Option (List Half)
  deriving DecidableEq, Repr

/-- The pixel count N = W * H (00_scope.md R13). -/
def DecodeOperands.count (o : DecodeOperands) : Nat := o.width * o.height

/-- The operands of DECODE: `data`, `W`, `H`, and a palette that may be absent (R21, R171). Of several
missing fields the first in this order is named (log 8). -/
def decodeOperands (r : Request) : Except OperandField DecodeOperands :=
  match requireField .data r.data with
  | .error f => .error f
  | .ok d =>
    match requireField .width r.width with
    | .error f => .error f
    | .ok w =>
      match requireField .height r.height with
      | .error f => .error f
      | .ok h => .ok { data := d, width := w, height := h, palette := r.palette }

/-- The operand of NAME2CODE (R21). -/
def nameOperand (r : Request) : Except OperandField Text := requireField .name r.name

/-- The operands of CODE2NAME (R21). -/
def codeBitsOperand (r : Request) : Except OperandField (Byte × Byte) :=
  match requireField .colorBits r.colorBits with
  | .error f => .error f
  | .ok c =>
    match requireField .sizeBits r.sizeBits with
    | .error f => .error f
    | .ok s => .ok (c, s)

/-- An operation that reads the command word alone (R21): BITS_PER_PIXEL, or a reserved selector. -/
def noOperand (_ : Request) : Except OperandField Unit := .ok ()

/-- The name of the field that reading the operands found missing, if any. -/
def missingField {α : Type} : Except OperandField α → Option OperandField
  | .error field => some field
  | .ok _ => none

/-- `Pix(i)` (00_scope.md R13). -/
def PixelBuffer.pix (p : PixelBuffer) (i : Nat) : Pixel := p.pixels.getD i ⟨0#8, 0#8, 0#8, 0#8⟩

/-- Byte `i` of the byte space (20_memory.md R40). -/
def byteAt (data : List Byte) (i : Nat) : Byte := data.getD i 0#8

/-- `MemRead(addr, n)`: n bytes from `addr` on as one big-endian value (00_scope.md R13, 20_memory.md R41):
the sum over k < n of `byte[addr + k] << (8 * (n - 1 - k))`. -/
def memRead (data : List Byte) (addr n : Nat) : BitVec (8 * n) :=
  BitVec.ofNat (8 * n)
    ((List.range n).map fun k => (byteAt data (addr + k)).toNat <<< (8 * (n - 1 - k))).sum

/-- The 1-bit field of pixel i: bit `7 - (i mod 8)` of byte `i div 8` (20_memory.md R43, R46). -/
def bitField (data : List Byte) (i : Nat) : BitVec 1 :=
  (byteAt data (i / 8)).extractLsb' (7 - i % 8) 1

/-- The 4-bit field of pixel i: bits 7:4 (i even) or 3:0 (i odd) of byte `i div 2` (20_memory.md R43,
R46). -/
def nibbleField (data : List Byte) (i : Nat) : BitVec 4 :=
  if i % 2 = 0 then (byteAt data (i / 2)).extractLsb' 4 4 else (byteAt data (i / 2)).extractLsb' 0 4

/-- The palette that a sequence of palette bytes stands for: entry k is `byte[2k] << 8 | byte[2k+1]`
(20_memory.md R42). The conversion is the host's, made before it presents the palette. Of an odd number of
bytes the last one makes no entry, which is the model's choice: R42 gives no entry for it (DESIGN CHOICE,
log 15). -/
def paletteOfBytes : List Byte → List Half
  | hi :: lo :: rest => (hi ++ lo) :: paletteOfBytes rest
  | _ => []

end Sys2Proof.Machine
end

