-- ==== Sys2Proof/Config.lean ====
section
/-! DEFINITION. What is fixed for the lifetime of a codec (10_state.md R24, 00_scope.md R10), and the one
free value of the spec (70_reset_and_hazards.md R195). -/

namespace Sys2Proof

/-- The legal values of I4_DECODE_ALPHA (10_state.md R24): 255, or the intensity. -/
inductive I4Alpha where
  | opaque255
  | intensity
  deriving DecidableEq, Repr

/-- The configuration constants (10_state.md R24). `maxPixels = none` is the value "unbounded". They are
data of State, so that a statement about every state covers every legal configuration (log 4). -/
structure Config where
  i4DecodeAlpha : I4Alpha
  maxPixels : Option Nat
  deriving DecidableEq, Repr

/-- The values this spec takes (00_scope.md R10, 10_state.md R24). -/
def Config.spec : Config := { i4DecodeAlpha := .opaque255, maxPixels := none }

/-- The response to a transaction whose input buffers changed during it: "any response (a draw)"
(70_reset_and_hazards.md R195). Without a body: nothing is known of any of its values. It is applied to the
count of draws so far, so each draw is a value of its own (log 3). -/
opaque Config.freeResponse : Nat → Machine.Response

end Sys2Proof
end

