-- ==== Sys2Proof/Machine/State.lean ====
section
/-! DEFINITION. The state of the machine: the configuration (10_state.md R24), the transactions in
progress (60_exceptions.md R180) and the response just delivered (10_state.md R23). The codec holds no
register, flag or program counter (R20, R22, R24, R30), so there is nothing else to hold. -/

namespace Sys2Proof.Machine

/-- The machine. `order` and `draws` are the model's own fields (log 2, log 3). -/
structure State where
  /-- The constants I4_DECODE_ALPHA and MAX_PIXELS (R24, 70_reset_and_hazards.md R191). -/
  config : Config
  /-- The transactions presented and not yet answered, oldest first (R180). -/
  pending : List Transaction
  /-- The positions in `pending` of the transactions answered next: concurrent transactions "complete in
  any order" (R180). Where it is empty, or names no transaction, the oldest is answered (log 2). -/
  order : List Nat
  /-- The response the last step delivered; none where it delivered none (R23). -/
  response : Option Response
  /-- How many free responses have been drawn (R195, log 3). -/
  draws : Nat
  deriving DecidableEq, Repr

/-- The reasons the machine stops with a fault: none. Every error of the codec is the status of a response
(60_exceptions.md R170, R174), after which the machine goes on, so nothing raises a fault (log 5). -/
inductive Fault where
  deriving DecidableEq, Repr

/-- The reasons a step or an instruction is refused. -/
inductive Refusal where
  /-- An instruction that has no meaning yet. Raised by no arm of `exec`. Safe. -/
  | notModelled (mnemonic : String)
  /-- The request lacks this operand field, which its operation reads: "the model refuses it at the
  interface and gives it no response" (60_exceptions.md R171). Raised by every instruction that has
  operands beside the command word, and by a reserved `fmt` of ENCODE or DECODE. Safe. -/
  | missingOperand (field : OperandField)
  /-- An instruction's meaning was asked for with no transaction in progress, so with no request to answer
  (60_exceptions.md R171). Raised by every meaning, never by `step`, which idles. Safe. -/
  | noTransaction
  deriving DecidableEq, Repr

/-- The machine right after reset (10_state.md R31, 70_reset_and_hazards.md R190, R191): the configuration
at the spec's values, no transaction in progress, no response. -/
def State.reset : State :=
  { config := Config.spec, pending := [], order := [], response := none, draws := 0 }

end Sys2Proof.Machine
end

