-- ==== Sys2Proof/Machine/Ops.lean ====
section
/-! DEFINITION. The shared operations: choosing the transaction a step answers, answering it with a
result or an error, the checks of ENCODE and DECODE, and what the host does between steps. -/

namespace Sys2Proof.Machine

/-! ## The transaction being answered -/

/-- The position in `pending` of the transaction answered next: the head of `order` where it names a
transaction in progress, else the oldest (60_exceptions.md R180, log 2). -/
def State.turn (s : State) : Nat :=
  match s.order with
  | k :: _ => if k < s.pending.length then k else 0
  | [] => 0

/-- The transaction answered next; none where none is in progress. -/
def State.current (s : State) : Option Transaction := s.pending[s.turn]?

/-- The delivery of a response ends the transaction: it leaves `pending` and nothing else of it stays
(20_memory.md R47, R48, R52). -/
def State.answer (s : State) (resp : Response) : State :=
  { s with pending := s.pending.eraseIdx s.turn, order := s.order.tail, response := some resp }

/-- `respond(v)`: status OK and result v (00_scope.md R13). -/
def State.respond (s : State) (v : Result) : State := s.answer (.ok v)

/-- `raise E_<NAME>(info)`, the error entry (60_exceptions.md R174): the transaction ends at once with the
status and info record and no result; nothing is saved, no mode or mask changes, and control passes to no
handler. There is no return from it and nothing to restore: the machine goes on with the next transaction
(R175). -/
def State.raise (s : State) (e : ErrorReport) : State := s.answer (.error e)

/-- The end of a transaction with a result or an error. -/
def State.conclude (s : State) : Except ErrorReport Result → State
  | .ok v => s.respond v
  | .error e => s.raise e

/-- The end of a transaction whose inputs changed during it: a free response, the next of the draws
(70_reset_and_hazards.md R195). -/
def State.draw (s : State) : State :=
  { s.answer (Config.freeResponse s.draws) with draws := s.draws + 1 }

/-- One transaction, from its operands to its response. `operands` reads the operand fields, or names one
that is missing (60_exceptions.md R171); `body` is what the operation computes, and answers where the host
left every input buffer of the request alone (R195). -/
def serve {α : Type} (operands : Request → Except OperandField α)
    (body : α → Except ErrorReport Result) (s : State) : Host.Outcome State Fault Refusal :=
  match s.current with
  | none => .refused .noTransaction
  | some t =>
    match operands t.request with
    | .error field => .refused (.missingOperand field)
    | .ok v => if t.disturbed then .next s.draw else .next (s.conclude (body v))

/-! ## The checks of ENCODE and DECODE -/

/-- N > MAX_PIXELS (00_scope.md R10). -/
def tooManyPixels (cfg : Config) (n : Nat) : Bool :=
  match cfg.maxPixels with
  | some limit => limit < n
  | none => false

/-- Whether the dimensions fail: N > MAX_PIXELS, or N mod G(fmt) ≠ 0, or fmt = 0x00 and W mod 8 ≠ 0
(41_encode.md R110, 42_decode.md R140). -/
def badDimension (cfg : Config) (fmt : Byte) (width height : Nat) : Bool :=
  tooManyPixels cfg (width * height) || width * height % groupSize fmt != 0
    || (fmt == 0x00#8 && width % 8 != 0)

/-- ENCODE as a pure function of its operand: the checks of 41_encode.md R110 in its order, then the bytes
that `pack` gives. -/
def encodeBody (cfg : Config) (fmt : Byte) (pack : PixelBuffer → List Byte) (p : PixelBuffer) :
    Except ErrorReport Result :=
  if badDimension cfg fmt p.width p.height then .error (.dimension p.width p.height (groupSize fmt))
  else if p.pixels.length ≠ p.count then .error (.length p.count p.pixels.length)
  else .ok (.bytes (pack p))

/-- ENCODE of a format the encoder implements (41_encode.md R110). -/
def serveEncode (fmt : Byte) (pack : PixelBuffer → List Byte) (s : State) :
    Host.Outcome State Fault Refusal :=
  serve encodeOperand (encodeBody s.config fmt pack) s

/-- ENCODE of a format the encoder does not implement, or of a reserved code: E_UNSUPPORTED_FORMAT before
any dimension or length check (41_encode.md R110, R120, R121). -/
def serveEncodeUnsupported (fmt : Byte) (s : State) : Host.Outcome State Fault Refusal :=
  serve encodeOperand (fun _ => .error (.unsupportedFormat 0x01#8 fmt)) s

/-- DECODE as a pure function of its operands: the dimension and length checks of 42_decode.md R140 in its
order, then `unpack`, then the PixelBuffer with its metadata (10_state.md R29). -/
def decodeBody (cfg : Config) (fmt : Byte) (unpack : DecodeOperands → Except ErrorReport (List Pixel))
    (o : DecodeOperands) : Except ErrorReport Result :=
  if badDimension cfg fmt o.width o.height then .error (.dimension o.width o.height (groupSize fmt))
  else if o.data.length ≠ packedLen fmt o.width o.height then
    .error (.length (packedLen fmt o.width o.height) o.data.length)
  else
    match unpack o with
    | .error e => .error e
    | .ok pixels =>
      .ok (.picture { width := o.width, height := o.height, pixels := pixels }
        { name := metadataName fmt, width := o.width, height := o.height })

/-- DECODE of a listed format (42_decode.md R140). -/
def serveDecode (fmt : Byte) (unpack : DecodeOperands → Except ErrorReport (List Pixel)) (s : State) :
    Host.Outcome State Fault Refusal :=
  serve decodeOperands (decodeBody s.config fmt unpack) s

/-- DECODE of a reserved code: E_UNSUPPORTED_FORMAT before any other check (42_decode.md R140). -/
def serveDecodeUnsupported (fmt : Byte) (s : State) : Host.Outcome State Fault Refusal :=
  serve decodeOperands (fun _ => .error (.unsupportedFormat 0x02#8 fmt)) s

/-- A reserved `op`: E_ILLEGAL_OP, whatever `fmt` holds (30_encoding.md R65). -/
def serveIllegalOp (op : Byte) (s : State) : Host.Outcome State Fault Refusal :=
  serve noOperand (fun _ => .error (.illegalOp op)) s

/-! ## Outputs -/

/-- `MemWrite(addr, n, v)`: the n bytes of v, most significant first (00_scope.md R13, 20_memory.md R41).
Every ENCODE body writes its fields at ascending, adjoining offsets, so the output is their bytes in
order. -/
def bytesOf (n : Nat) (v : BitVec (8 * n)) : List Byte :=
  (List.range n).map fun k => v.extractLsb' (8 * (n - 1 - k)) 8

/-! ## The machine between transactions, and the host -/

/-- A step with no transaction in progress: nothing happens, and the response of the step before has been
delivered and is not held (10_state.md R23, R30; log 1). -/
def State.idle (s : State) : State := { s with response := none }

/-- The command of the transaction answered next, decoded (30_encoding.md R60); none where no transaction is
in progress. The codec has no instruction memory: "each command word is presented by the host with its
request" (20_memory.md R54). -/
def State.fetch (s : State) : Option DecodeResult := s.current.map fun t => decode t.request.cmd

/-- A request with the empty value in every operand field. -/
def Request.blank (cmd : Half) : Request :=
  { cmd := cmd, pixels := some { width := 0, height := 0, pixels := [] }, data := some [],
    width := some 0, height := some 0, palette := some [], name := some [], colorBits := some 0#8,
    sizeBits := some 0#8 }

/-- A request with another command word, and with an empty value in each operand field that it lacks and an
operation must have (60_exceptions.md R171). -/
def Request.withCommand (r : Request) (cmd : Half) : Request :=
  { cmd := cmd, pixels := some (r.pixels.getD { width := 0, height := 0, pixels := [] })
    data := some (r.data.getD []), width := some (r.width.getD 0), height := some (r.height.getD 0)
    palette := r.palette, name := some (r.name.getD []), colorBits := some (r.colorBits.getD 0#8)
    sizeBits := some (r.sizeBits.getD 0#8) }

/-- The state in which the transaction answered next has the command word `cmd`: the one that is next in
`s`, or, where none is in progress, one the host presents with empty operands (log 10). -/
def State.withCommand (s : State) (cmd : Half) : State :=
  match s.current with
  | some t => { s with pending := s.pending.set s.turn { t with request := t.request.withCommand cmd } }
  | none => { s with pending := [{ request := Request.blank cmd, changed := [] }] }

/-- A reset: the transactions in progress give no response, and the configuration stays
(70_reset_and_hazards.md R190, R191; log 9). -/
def State.applyReset (s : State) : State := { s with pending := [], order := [], response := none }

/-- The operand field that a request lacks for an operation, if any (60_exceptions.md R171). -/
def Request.lacks (r : Request) : Operation → Option OperandField
  | .encode => missingField (encodeOperand r)
  | .decode => missingField (decodeOperands r)
  | .bitsPerPixel => none
  | .nameToCode => missingField (nameOperand r)
  | .codeToName => missingField (codeBitsOperand r)

/-- The operand field a request lacks for the operation of its command, if any (60_exceptions.md R171). -/
def Request.missing (r : Request) : Option OperandField :=
  match Operation.ofSelector r.op with
  | some operation => r.lacks operation
  | none => none

/-- The host presents a request (70_reset_and_hazards.md R193). A request that lacks an operand field is
refused at the interface (60_exceptions.md R171). -/
def State.present (s : State) (r : Request) : Except Refusal State :=
  match r.missing with
  | some field => .error (.missingOperand field)
  | none => .ok { s with pending := s.pending ++ [{ request := r, changed := [] }] }

/-- The host changes the input buffer `b` of the transaction at position `k` (70_reset_and_hazards.md
R195). What it then holds does not matter, nor whether the operation reads it: the response may be any. -/
def State.changeInput (s : State) (k : Nat) (b : InputBuffer) : State :=
  { s with pending := s.pending.modify k fun t => { t with changed := b :: t.changed } }

end Sys2Proof.Machine
end

