-- ==== Sys2Proof/Machine/Catalog.lean ====
section
/-! DEFINITION. The FormatCatalog instructions: 40_catalog.md R101, R103, R105. -/

namespace Sys2Proof.Machine

/-- BPP (R101). -/
def execBpp (fmt : Byte) (s : State) : Host.Outcome State Fault Refusal :=
  serve noOperand (fun _ => .ok (.bits (bpp fmt))) s

/-- N2C (R103); the byte `cmd[7:0]` is ignored. -/
def execN2c (_ignored : Byte) (s : State) : Host.Outcome State Fault Refusal :=
  serve nameOperand (fun name => .ok (.code (nameToCode name))) s

/-- C2N (R105); the byte `cmd[7:0]` is ignored. -/
def execC2n (_ignored : Byte) (s : State) : Host.Outcome State Fault Refusal :=
  serve codeBitsOperand (fun c => .ok (.label (codeToName c.1 c.2))) s

end Sys2Proof.Machine
end

