-- ==== Sys2Proof/Machine/Flags.lean ====
section
/-! DEFINITION. Status and flags. The codec has no condition codes; "the status is the codec's only status
indicator" (10_state.md R23). The flags here are the alpha flags of the packed formats (30_encoding.md R68,
R69, R72). -/

namespace Sys2Proof.Machine

/-- The status codes (60_exceptions.md R170). -/
inductive Status where
  | ok
  | illegalOp
  | unsupportedFormat
  | dimension
  | length
  | missingPalette
  | paletteIndex
  deriving DecidableEq, Repr

/-- The number of a status (60_exceptions.md R170). -/
def Status.number : Status → Nat
  | .ok => 0
  | .illegalOp => 1
  | .unsupportedFormat => 2
  | .dimension => 3
  | .length => 4
  | .missingPalette => 5
  | .paletteIndex => 6

/-- The status of an error report (R170). -/
def ErrorReport.status : ErrorReport → Status
  | .illegalOp _ => .illegalOp
  | .unsupportedFormat _ _ => .unsupportedFormat
  | .dimension _ _ _ => .dimension
  | .length _ _ => .length
  | .missingPalette _ => .missingPalette
  | .paletteIndex _ _ _ => .paletteIndex

/-- The `status` field of a response (10_state.md R23). -/
def Response.status : Response → Status
  | .ok _ => .ok
  | .error e => e.status

/-- The `result` field of a response, "present only when status is OK" (10_state.md R23). -/
def Response.result : Response → Option Result
  | .ok v => some v
  | .error _ => none

/-- The 1-bit alpha flag of RGBA16 and IA4: 1 iff alpha is 255 exactly (41_encode.md R112, R114). -/
def opaqueFlag (a : Byte) : BitVec 1 := if a = 255#8 then 1#1 else 0#1

/-- The bit of OneBitAlpha: 1 iff alpha > 0 (41_encode.md R111). -/
def maskFlag (a : Byte) : BitVec 1 := if 0 < a.toNat then 1#1 else 0#1

/-- The expansion of a 1-bit flag to 0 or 255 (42_decode.md R141, R142, R147). -/
def expandFlag (m : BitVec 1) : Byte := if m = 1#1 then 255#8 else 0#8

end Sys2Proof.Machine
end

