-- ==== Sys2Proof/Machine/Quantize.lean ====
section
/-! DEFINITION. Quantization and expansion (00_scope.md R12, R14; 42_decode.md R141 to R149). Operands go
to naturals, the arithmetic is exact, and the result is narrowed at the end. -/

namespace Sys2Proof.Machine

/-- avg(r, g, b) = (r + g + b) div 3, whose sum may need 10 bits (R14). -/
def avg (r g b : Byte) : Byte := BitVec.ofNat 8 ((r.toNat + g.toNat + b.toNat) / 3)

/-- The average of a pixel's color channels. -/
def Pixel.avg (p : Pixel) : Byte := Machine.avg p.r p.g p.b

/-- q_n(c) = min(2^n - 1, (c * 2^n) div 255), an n-bit field (R14). -/
def quantize (n : Nat) (c : Byte) : BitVec n := BitVec.ofNat n (min (2 ^ n - 1) (c.toNat * 2 ^ n / 255))

/-- The widening of an n-bit field by multiplication (42_decode.md R141, R146, R147, R149). -/
def scale {n : Nat} (factor : Nat) (c : BitVec n) : Byte := BitVec.ofNat 8 (c.toNat * factor)

/-- Expand16(v) (42_decode.md R141), for RGBA16 data and for palette entries (30_encoding.md R69, R70). -/
def expand16 (v : Half) : Pixel :=
  { r := scale 8 (v.extractLsb' 11 5)
    g := scale 8 (v.extractLsb' 6 5)
    b := scale 8 (v.extractLsb' 1 5)
    a := expandFlag (v.extractLsb' 0 1) }

/-- A grey pixel (I, I, I, A). -/
def grey (i a : Byte) : Pixel := { r := i, g := i, b := i, a := a }

end Sys2Proof.Machine
end

