-- ==== Sys2Proof/Machine/Decoders.lean ====
section
/-! DEFINITION. The DECODE instructions: 42_decode.md R142 to R153, with the layouts of 30_encoding.md R68
to R78. -/

namespace Sys2Proof.Machine

/-- One bit to opaque white or transparent black (R142). -/
def maskPixel (m : BitVec 1) : Pixel := grey (expandFlag m) (expandFlag m)

/-- Bytes R, G, B, A from offset `addr` on (R144). -/
def rgba32Pixel (data : List Byte) (addr : Nat) : Pixel :=
  { r := memRead data addr 1
    g := memRead data (addr + 1) 1
    b := memRead data (addr + 2) 1
    a := memRead data (addr + 3) 1 }

/-- I = v[15:8], A = v[7:0] (R145). -/
def ia16Pixel (v : Half) : Pixel := grey (v.extractLsb' 8 8) (v.extractLsb' 0 8)

/-- I = b[7:4] * 16, A = b[3:0] * 16 (R146). -/
def ia8Pixel (b : Byte) : Pixel := grey (scale 16 (b.extractLsb' 4 4)) (scale 16 (b.extractLsb' 0 4))

/-- I = n[3:1] * 32, A from n[0], of the nibble n: bits 7:5 and 4 of the byte for an even pixel, bits 3:1
and 0 for an odd one (R147, 30_encoding.md R72). -/
def ia4Pixel (n : BitVec 4) : Pixel := grey (scale 32 (n.extractLsb' 1 3)) (expandFlag (n.extractLsb' 0 1))

/-- The byte in all four channels (R148). -/
def i8Pixel (b : Byte) : Pixel := grey b b

/-- I = n * 16, with the alpha that I4_DECODE_ALPHA names (R149). -/
def i4Pixel (alpha : I4Alpha) (n : BitVec 4) : Pixel :=
  grey (scale 16 n) (match alpha with | .opaque255 => 255#8 | .intensity => scale 16 n)

/-- A body that computes output pixel i from the packed field of pixel i alone (10_state.md R22). -/
def unpackEach (pixel : List Byte → Nat → Pixel) (o : DecodeOperands) : Except ErrorReport (List Pixel) :=
  .ok ((List.range o.count).map (pixel o.data))

/-- PalLookup(i, k) (R151). -/
def palLookup (palette : List Half) (i k : Nat) : Except ErrorReport Pixel :=
  match palette[k]? with
  | some e => .ok (expand16 e)
  | none => .error (.paletteIndex i k palette.length)

/-- The lookups of the pixels listed, in order: the first that fails ends the transaction, so the smallest
pixel index with an index out of range is the one reported, and no pixel is returned (R151). -/
def palLookups (palette : List Half) (index : Nat → Nat) : List Nat → Except ErrorReport (List Pixel)
  | [] => .ok []
  | i :: rest =>
    match palLookup palette i (index i) with
    | .error e => .error e
    | .ok p =>
      match palLookups palette index rest with
      | .error e => .error e
      | .ok ps => .ok (p :: ps)

/-- A body that resolves each pixel's index through the palette, which must be present (R140, R151). -/
def unpackIndexed (fmt : Byte) (index : List Byte → Nat → Nat) (o : DecodeOperands) :
    Except ErrorReport (List Pixel) :=
  match o.palette with
  | none => .error (.missingPalette fmt)
  | some palette => palLookups palette (index o.data) (List.range o.count)

/-- DEC.1BPP (R142). -/
def execDecOneBpp (s : State) : Host.Outcome State Fault Refusal :=
  serveDecode 0x00#8 (unpackEach fun d i => maskPixel (bitField d i)) s

/-- DEC.RGBA16 (R143). -/
def execDecRgba16 (s : State) : Host.Outcome State Fault Refusal :=
  serveDecode 0x10#8 (unpackEach fun d i => expand16 (memRead d (2 * i) 2)) s

/-- DEC.RGBA32 (R144). -/
def execDecRgba32 (s : State) : Host.Outcome State Fault Refusal :=
  serveDecode 0x18#8 (unpackEach fun d i => rgba32Pixel d (4 * i)) s

/-- DEC.IA16 (R145). -/
def execDecIa16 (s : State) : Host.Outcome State Fault Refusal :=
  serveDecode 0x70#8 (unpackEach fun d i => ia16Pixel (memRead d (2 * i) 2)) s

/-- DEC.IA8 (R146). -/
def execDecIa8 (s : State) : Host.Outcome State Fault Refusal :=
  serveDecode 0x68#8 (unpackEach fun d i => ia8Pixel (memRead d i 1)) s

/-- DEC.IA4 (R147). -/
def execDecIa4 (s : State) : Host.Outcome State Fault Refusal :=
  serveDecode 0x60#8 (unpackEach fun d i => ia4Pixel (nibbleField d i)) s

/-- DEC.I8 (R148). -/
def execDecI8 (s : State) : Host.Outcome State Fault Refusal :=
  serveDecode 0x88#8 (unpackEach fun d i => i8Pixel (memRead d i 1)) s

/-- DEC.I4 (R149). -/
def execDecI4 (s : State) : Host.Outcome State Fault Refusal :=
  serveDecode 0x80#8 (unpackEach fun d i => i4Pixel s.config.i4DecodeAlpha (nibbleField d i)) s

/-- DEC.I4ALT (R150): the second code of I4; only the metadata name differs from DEC.I4. -/
def execDecI4Alt (s : State) : Host.Outcome State Fault Refusal :=
  serveDecode 0x90#8 (unpackEach fun d i => i4Pixel s.config.i4DecodeAlpha (nibbleField d i)) s

/-- DEC.CI4 (R152). -/
def execDecCi4 (s : State) : Host.Outcome State Fault Refusal :=
  serveDecode 0x40#8 (unpackIndexed 0x40#8 fun d i => (nibbleField d i).toNat) s

/-- DEC.CI8 (R153). -/
def execDecCi8 (s : State) : Host.Outcome State Fault Refusal :=
  serveDecode 0x48#8 (unpackIndexed 0x48#8 fun d i => (memRead d i 1).toNat) s

end Sys2Proof.Machine
end

