-- ==== Sys2Proof/Machine/Encoders.lean ====
section
/-! DEFINITION. The ENCODE instructions: 41_encode.md R111 to R121, with the layouts of 30_encoding.md R68
to R76. `++` on bit vectors puts its left operand in the high bits, so a field reads as its layout. -/

namespace Sys2Proof.Machine

/-- The byte of eight OneBitAlpha pixels, the first in bit 7 (R68, R111). -/
def maskByte (px : Nat → Pixel) : Byte :=
  maskFlag (px 0).a ++ maskFlag (px 1).a ++ maskFlag (px 2).a ++ maskFlag (px 3).a
    ++ maskFlag (px 4).a ++ maskFlag (px 5).a ++ maskFlag (px 6).a ++ maskFlag (px 7).a

/-- `RRRRRGGGGGBBBBBA` (R69, R112). -/
def rgba16Field (p : Pixel) : Half :=
  quantize 5 p.r ++ quantize 5 p.g ++ quantize 5 p.b ++ opaqueFlag p.a

/-- Bytes R, G, B, A (R71, R113). -/
def rgba32Field (p : Pixel) : BitVec 32 := p.r ++ p.g ++ p.b ++ p.a

/-- `(intensity<<1)|alphaFlag` (R72, R114). -/
def ia4Field (p : Pixel) : BitVec 4 := quantize 3 p.avg ++ opaqueFlag p.a

/-- High nibble intensity, low nibble alpha (R73, R115). -/
def ia8Field (p : Pixel) : Byte := quantize 4 p.avg ++ quantize 4 p.a

/-- Byte 0 the average, byte 1 alpha (R74, R116). -/
def ia16Field (p : Pixel) : Half := p.avg ++ p.a

/-- The 4-bit intensity (R75, R117). -/
def i4Field (p : Pixel) : BitVec 4 := quantize 4 p.avg

/-- Two 4-bit fields a byte, the earlier pixel in the high nibble (20_memory.md R43). -/
def packNibbles (field : Pixel → BitVec 4) (p : PixelBuffer) : List Byte :=
  (List.range (p.count / 2)).map fun j => field (p.pix (2 * j)) ++ field (p.pix (2 * j + 1))

/-- One field of n bytes a pixel, big-endian (20_memory.md R41, R44, R46). -/
def packFields (n : Nat) (field : Pixel → BitVec (8 * n)) (p : PixelBuffer) : List Byte :=
  (List.range p.count).flatMap fun i => bytesOf n (field (p.pix i))

/-- Eight 1-bit fields a byte, MSB first (20_memory.md R43). -/
def packMask (p : PixelBuffer) : List Byte :=
  (List.range (p.count / 8)).map fun j => maskByte fun k => p.pix (8 * j + k)

/-- ENC.1BPP (R111). -/
def execEncOneBpp (s : State) : Host.Outcome State Fault Refusal := serveEncode 0x00#8 packMask s

/-- ENC.RGBA16 (R112). -/
def execEncRgba16 (s : State) : Host.Outcome State Fault Refusal :=
  serveEncode 0x10#8 (packFields 2 rgba16Field) s

/-- ENC.RGBA32 (R113). -/
def execEncRgba32 (s : State) : Host.Outcome State Fault Refusal :=
  serveEncode 0x18#8 (packFields 4 rgba32Field) s

/-- ENC.IA4 (R114). -/
def execEncIa4 (s : State) : Host.Outcome State Fault Refusal := serveEncode 0x60#8 (packNibbles ia4Field) s

/-- ENC.IA8 (R115). -/
def execEncIa8 (s : State) : Host.Outcome State Fault Refusal :=
  serveEncode 0x68#8 (packFields 1 ia8Field) s

/-- ENC.IA16 (R116). -/
def execEncIa16 (s : State) : Host.Outcome State Fault Refusal :=
  serveEncode 0x70#8 (packFields 2 ia16Field) s

/-- ENC.I4 (R117). -/
def execEncI4 (s : State) : Host.Outcome State Fault Refusal := serveEncode 0x80#8 (packNibbles i4Field) s

/-- ENC.I4ALT (R118): the second code of I4, packed exactly as ENC.I4. -/
def execEncI4Alt (s : State) : Host.Outcome State Fault Refusal := serveEncode 0x90#8 (packNibbles i4Field) s

/-- ENC.I8 (R119). -/
def execEncI8 (s : State) : Host.Outcome State Fault Refusal :=
  serveEncode 0x88#8 (packFields 1 Pixel.avg) s

/-- ENC.CI4 (R120): always E_UNSUPPORTED_FORMAT. -/
def execEncCi4 (s : State) : Host.Outcome State Fault Refusal := serveEncodeUnsupported 0x40#8 s

/-- ENC.CI8 (R121): always E_UNSUPPORTED_FORMAT. -/
def execEncCi8 (s : State) : Host.Outcome State Fault Refusal := serveEncodeUnsupported 0x48#8 s

end Sys2Proof.Machine
end

