-- ==== Sys2Proof/Machine/Dispatch.lean ====
section
/-! DEFINITION. One arm per instruction. -/

namespace Sys2Proof.Machine

def exec (i : Instr) (s : State) : Host.Outcome State Fault Refusal :=
  match i with
  | .encOneBpp => Sys2Proof.Machine.execEncOneBpp s
  | .encRgba16 => Sys2Proof.Machine.execEncRgba16 s
  | .encRgba32 => Sys2Proof.Machine.execEncRgba32 s
  | .encIa4 => Sys2Proof.Machine.execEncIa4 s
  | .encIa8 => Sys2Proof.Machine.execEncIa8 s
  | .encIa16 => Sys2Proof.Machine.execEncIa16 s
  | .encI4 => Sys2Proof.Machine.execEncI4 s
  | .encI4Alt => Sys2Proof.Machine.execEncI4Alt s
  | .encI8 => Sys2Proof.Machine.execEncI8 s
  | .encCi4 => Sys2Proof.Machine.execEncCi4 s
  | .encCi8 => Sys2Proof.Machine.execEncCi8 s
  | .decOneBpp => Sys2Proof.Machine.execDecOneBpp s
  | .decRgba16 => Sys2Proof.Machine.execDecRgba16 s
  | .decRgba32 => Sys2Proof.Machine.execDecRgba32 s
  | .decIa4 => Sys2Proof.Machine.execDecIa4 s
  | .decIa8 => Sys2Proof.Machine.execDecIa8 s
  | .decIa16 => Sys2Proof.Machine.execDecIa16 s
  | .decI4 => Sys2Proof.Machine.execDecI4 s
  | .decI4Alt => Sys2Proof.Machine.execDecI4Alt s
  | .decI8 => Sys2Proof.Machine.execDecI8 s
  | .decCi4 => Sys2Proof.Machine.execDecCi4 s
  | .decCi8 => Sys2Proof.Machine.execDecCi8 s
  | .bpp fmt => Sys2Proof.Machine.execBpp fmt s
  | .n2c ignored => Sys2Proof.Machine.execN2c ignored s
  | .c2n ignored => Sys2Proof.Machine.execC2n ignored s

end Sys2Proof.Machine
end

