-- ==== Sys2Proof/Machine/Step.lean ====
section
/-! DEFINITION. One step: one transaction from its command word to its response (70_reset_and_hazards.md
R198), or nothing where no transaction is in progress. -/

namespace Sys2Proof.Machine

/-- One step. A command that decodes to an instruction runs it; a reserved `op` and a reserved `fmt` of
ENCODE or DECODE answer their error (30_encoding.md R65). -/
def step (s : State) : Host.Outcome State Fault Refusal :=
  match s.fetch with
  | none => .next s.idle
  | some (.instr i) => exec i s
  | some (.illegalOp op) => serveIllegalOp op s
  | some (.reservedEncodeFormat fmt) => serveEncodeUnsupported fmt s
  | some (.reservedDecodeFormat fmt) => serveDecodeUnsupported fmt s

/-- `s` with an opcode-table word as the command of the transaction that the next step answers (log 10). -/
def State.withFetchWord (s : State) (nbits w : Nat) : State :=
  s.withCommand (BitVec.ofNat 16 (w % 2 ^ nbits))

end Sys2Proof.Machine
end

