-- ==== Sys2Proof/Machine/Assembler.lean ====
section
/-! DEFINITION. The assembly language, as the requests its lines stand for (30_encoding.md R67). A program
is a sequence of lines that the host presents one at a time; a pseudo-instruction is two of them. -/

namespace Sys2Proof.Machine

/-- The assembly mnemonic of an instruction (30_encoding.md R64). -/
def mnemonic : Instr → String
  | .encOneBpp => "ENC.1BPP"
  | .encRgba16 => "ENC.RGBA16"
  | .encRgba32 => "ENC.RGBA32"
  | .encIa4 => "ENC.IA4"
  | .encIa8 => "ENC.IA8"
  | .encIa16 => "ENC.IA16"
  | .encI4 => "ENC.I4"
  | .encI4Alt => "ENC.I4ALT"
  | .encI8 => "ENC.I8"
  | .encCi4 => "ENC.CI4"
  | .encCi8 => "ENC.CI8"
  | .decOneBpp => "DEC.1BPP"
  | .decRgba16 => "DEC.RGBA16"
  | .decRgba32 => "DEC.RGBA32"
  | .decIa4 => "DEC.IA4"
  | .decIa8 => "DEC.IA8"
  | .decIa16 => "DEC.IA16"
  | .decI4 => "DEC.I4"
  | .decI4Alt => "DEC.I4ALT"
  | .decI8 => "DEC.I8"
  | .decCi4 => "DEC.CI4"
  | .decCi8 => "DEC.CI8"
  | .bpp _ => "BPP"
  | .n2c _ => "N2C"
  | .c2n _ => "C2N"

/-- A line of assembly with its operands (R67). `enc` and `dec` hold the code of their format. -/
inductive AsmLine where
  | enc (fmt : Byte) (pixels : PixelBuffer)
  | dec (fmt : Byte) (data : List Byte) (width height : Nat) (palette : Option (List Half))
  | bpp (fmt : Byte)
  | n2c (name : Text)
  | c2n (colorBits sizeBits : Byte)
  deriving DecidableEq, Repr

/-- The request of a line: its command word and the operands it names (R67). -/
def AsmLine.request : AsmLine → Request
  | .enc fmt p => { Request.bare (0x01#8 ++ fmt) with pixels := some p }
  | .dec fmt d w h pal =>
    { Request.bare (0x02#8 ++ fmt) with data := some d, width := some w, height := some h, palette := pal }
  | .bpp fmt => Request.bare (0x03#8 ++ fmt)
  | .n2c name => { Request.bare 0x0400#16 with name := some name }
  | .c2n c s => { Request.bare 0x0500#16 with colorBits := some c, sizeBits := some s }

/-- The pseudo-instructions, which name their format (R67). -/
inductive PseudoLine where
  | enc (name : Text) (pixels : PixelBuffer)
  | dec (name : Text) (data : List Byte) (width height : Nat) (palette : Option (List Half))
  | bpp (name : Text)
  deriving DecidableEq, Repr

/-- The first command of a pseudo-instruction: `N2C "name"` (R67). -/
def PseudoLine.first : PseudoLine → AsmLine
  | .enc name _ => .n2c name
  | .dec name _ _ _ _ => .n2c name
  | .bpp name => .n2c name

/-- The second command of a pseudo-instruction: the real one, with `fmt` the result of the first (R67). None
where the first response is not a format code. -/
def PseudoLine.second (l : PseudoLine) : Response → Option AsmLine
  | .ok (.code fmt) =>
    match l with
    | .enc _ p => some (.enc fmt p)
    | .dec _ d w h pal => some (.dec fmt d w h pal)
    | .bpp _ => some (.bpp fmt)
  | _ => none

end Sys2Proof.Machine
end

