-- ==== Sys2Proof/WellFormed.lean ====
section
/-! DEFINITION. Well-formedness of instructions, of pixel buffers and of requests. -/

namespace Sys2Proof

/-- Every instruction is well formed: a format operand is any 8-bit value (40_catalog.md R101) and an
ignored byte is any value (30_encoding.md R61), so the types already say all there is to check. -/
def Instr.wellFormed : Instr → Bool
  | .encOneBpp | .encRgba16 | .encRgba32 | .encIa4 | .encIa8 | .encIa16 | .encI4 | .encI4Alt | .encI8
  | .encCi4 | .encCi8 | .decOneBpp | .decRgba16 | .decRgba32 | .decIa4 | .decIa8 | .decIa16 | .decI4
  | .decI4Alt | .decI8 | .decCi4 | .decCi8 => true
  | .bpp _ => true
  | .n2c _ => true
  | .c2n _ => true

namespace Machine

/-- A PixelBuffer "holds exactly N = W*H pixels" (10_state.md R27). -/
def PixelBuffer.wellFormed (p : PixelBuffer) : Bool := p.pixels.length == p.width * p.height

/-- A request holds every operand field its operation reads (60_exceptions.md R171). A command with a
reserved `op` reads none; a palette may always be absent. -/
def Request.wellFormed (r : Request) : Bool :=
  match Operation.ofSelector r.op with
  | some .encode => r.pixels.isSome
  | some .decode => r.data.isSome && r.width.isSome && r.height.isSome
  | some .bitsPerPixel => true
  | some .nameToCode => r.name.isSome
  | some .codeToName => r.colorBits.isSome && r.sizeBits.isSome
  | none => true

end Machine
end Sys2Proof
end

