-- ==== Sys2Proof/Safety.lean ====
section
/-! DEFINITION. The terms that claims use: which states are sound, which transaction is being answered, and
what a transaction alone would answer. -/

namespace Sys2Proof.Machine

/-- Every transaction in progress is one: its request holds the operand fields its operation reads
(60_exceptions.md R171). The machine's invariant. -/
def State.wellFormed (s : State) : Bool := s.pending.all fun t => t.request.wellFormed

/-- The request `r` is the one being answered, and the host left all its input buffers alone
(70_reset_and_hazards.md R195). -/
def State.Serves (s : State) (r : Request) : Prop :=
  ∃ t, s.current = some t ∧ t.request = r ∧ t.changed = []

/-- The state that holds one undisturbed transaction and nothing else. -/
def State.alone (cfg : Config) (r : Request) : State :=
  { config := cfg, pending := [{ request := r, changed := [] }], order := [], response := none, draws := 0 }

/-- The response a step delivers; none where it delivers none or stops. -/
def deliveredBy : Host.Outcome State Fault Refusal → Option Response
  | .next s => s.response
  | .fault _ => none
  | .refused _ => none

end Sys2Proof.Machine
end

