-- ==== Sys2Proof/Certificates/Slice0/Obligations.lean ====
section
/-! DEFINITION. The statements for the provers. `Sys2Proof.Claims` holds the spec's formulas over naturals,
written from the rules and not from the model's functions, so that a statement compares the two. -/

namespace Sys2Proof.Claims

open Sys2Proof.Machine

/-- The instruction answers the transaction with `resp`: the next state is `s.answer resp` and nothing else
of it differs (statement O2 says what `answer` changes). -/
abbrev Answers (i : Instr) (s : State) (resp : Response) : Prop := exec i s = .next (s.answer resp)

/-- The response of a step that answers one undisturbed request alone. -/
abbrev responseTo (cfg : Config) (r : Request) : Option Response := deliveredBy (step (State.alone cfg r))

/-- N > MAX_PIXELS (00_scope.md R10). -/
abbrev OverLimit (cfg : Config) (n : Nat) : Prop := ∃ m, cfg.maxPixels = some m ∧ m < n

/-- The dimensions fail: N > MAX_PIXELS, or N is no multiple of the pixel group, or W is no multiple of
`divisor` (8 for OneBitAlpha, 1 otherwise) (41_encode.md R110, 42_decode.md R140). -/
abbrev BadDims (cfg : Config) (group divisor width height : Nat) : Prop :=
  OverLimit cfg (width * height) ∨ ¬ group ∣ width * height ∨ ¬ divisor ∣ width

/-- q_n(c) (00_scope.md R14). -/
abbrev q (n c : Nat) : Nat := min (2 ^ n - 1) (c * 2 ^ n / 255)

/-- avg(r, g, b) of a pixel (00_scope.md R14). -/
abbrev avg (p : Pixel) : Nat := (p.r.toNat + p.g.toNat + p.b.toNat) / 3

/-- 1 iff alpha is 255 exactly (41_encode.md R112). -/
abbrev flag (p : Pixel) : Nat := if p.a.toNat = 255 then 1 else 0

/-- Byte `i` of a buffer has the value `v`. -/
abbrev ByteIs (d : List Byte) (i v : Nat) : Prop := ∃ b, d[i]? = some b ∧ b.toNat = v

/-- The big-endian 16-bit value at byte offset `i` is `v` (20_memory.md R41). -/
abbrev HalfIs (d : List Byte) (i v : Nat) : Prop :=
  ∃ hi lo, d[i]? = some hi ∧ d[i + 1]? = some lo ∧ hi.toNat * 256 + lo.toNat = v

/-- The 4-bit field of pixel `k` is `v`: bits 7:4 (k even) or 3:0 (k odd) of byte k div 2 (R43). -/
abbrev NibbleIs (d : List Byte) (k v : Nat) : Prop :=
  ∃ b, d[k / 2]? = some b ∧ (if k % 2 = 0 then b.toNat / 16 else b.toNat % 16) = v

/-- The channels of a pixel. -/
abbrev PixelIs (p : Pixel) (r g b a : Nat) : Prop :=
  p.r.toNat = r ∧ p.g.toNat = g ∧ p.b.toNat = b ∧ p.a.toNat = a

/-- A pixel with the channels of Expand16(v) (42_decode.md R141). -/
abbrev Expands (p : Pixel) (v : Nat) : Prop :=
  PixelIs p (v / 2 ^ 11 % 32 * 8) (v / 2 ^ 6 % 32 * 8) (v / 2 % 32 * 8) (if v % 2 = 1 then 255 else 0)

/-- What an ENCODE instruction does with a request that has its pixels and whose inputs the host left alone
(41_encode.md R110 and its own rule): its command word; E_DIMENSION,
then E_LENGTH; else OK with bytes that are as `Packed` says. -/
abbrev Encodes (cmd : Half) (i : Instr) (group divisor : Nat) (Packed : PixelBuffer → List Byte → Prop) :
    Prop :=
  decode cmd = .instr i ∧
  ∀ (s : State) (r : Request) (p : PixelBuffer), s.Serves r → r.pixels = some p →
    (BadDims s.config group divisor p.width p.height →
      Answers i s (.error (.dimension p.width p.height group))) ∧
    (¬ BadDims s.config group divisor p.width p.height → p.pixels.length ≠ p.width * p.height →
      Answers i s (.error (.length (p.width * p.height) p.pixels.length))) ∧
    (¬ BadDims s.config group divisor p.width p.height → p.pixels.length = p.width * p.height →
      ∃ out, Answers i s (.ok (.bytes out)) ∧ Packed p out)

/-- What a DECODE instruction of a format without a palette does with a request that has its operands and
whose inputs the host left alone (42_decode.md R140 and its own rule): its command word; E_DIMENSION, then E_LENGTH; else OK with W * H pixels, each as `Unpacked` says, and the
metadata. -/
abbrev Decodes (cmd : Half) (i : Instr) (group divisor : Nat) (length : Nat → Nat) (name : String)
    (Unpacked : Config → List Byte → Nat → Pixel → Prop) : Prop :=
  decode cmd = .instr i ∧
  ∀ (s : State) (r : Request) (d : List Byte) (w h : Nat), s.Serves r →
    r.data = some d → r.width = some w → r.height = some h →
    (BadDims s.config group divisor w h → Answers i s (.error (.dimension w h group))) ∧
    (¬ BadDims s.config group divisor w h → d.length ≠ length (w * h) →
      Answers i s (.error (.length (length (w * h)) d.length))) ∧
    (¬ BadDims s.config group divisor w h → d.length = length (w * h) →
      ∃ px, Answers i s (.ok (.picture ⟨w, h, px⟩ ⟨name.toList, w, h⟩)) ∧ px.length = w * h ∧
        ∀ (k : Nat) (p : Pixel), px[k]? = some p → Unpacked s.config d k p)

/-- What a DECODE instruction of a color-indexed format does with a request that has its operands and whose
inputs the host left alone (42_decode.md R140, R151 and its own rule).
`IndexIs d k v` says that the packed index of pixel k is v. -/
abbrev DecodesIndexed (cmd : Half) (i : Instr) (fmt : Byte) (group : Nat) (length : Nat → Nat)
    (name : String) (IndexIs : List Byte → Nat → Nat → Prop) : Prop :=
  decode cmd = .instr i ∧
  ∀ (s : State) (r : Request) (d : List Byte) (w h : Nat), s.Serves r →
    r.data = some d → r.width = some w → r.height = some h →
    (BadDims s.config group 1 w h → Answers i s (.error (.dimension w h group))) ∧
    (¬ BadDims s.config group 1 w h → d.length ≠ length (w * h) →
      Answers i s (.error (.length (length (w * h)) d.length))) ∧
    (¬ BadDims s.config group 1 w h → d.length = length (w * h) →
      (r.palette = none → Answers i s (.error (.missingPalette fmt))) ∧
      (∀ pal, r.palette = some pal →
        (∀ k v, k < w * h → IndexIs d k v → pal.length ≤ v →
          (∀ k' v', k' < k → IndexIs d k' v' → v' < pal.length) →
          Answers i s (.error (.paletteIndex k v pal.length))) ∧
        ((∀ k v, k < w * h → IndexIs d k v → v < pal.length) →
          ∃ px, Answers i s (.ok (.picture ⟨w, h, px⟩ ⟨name.toList, w, h⟩)) ∧ px.length = w * h ∧
            ∀ (k : Nat) (p : Pixel), px[k]? = some p →
              ∃ v e, IndexIs d k v ∧ pal[v]? = some e ∧ Expands p e.toNat)))

/-- The request has no value in the operand field `f`, which its operation reads (60_exceptions.md R171). -/
abbrev Lacks (r : Request) : OperandField → Prop
  | .pixels => r.op = 0x01#8 ∧ r.pixels = none
  | .data => r.op = 0x02#8 ∧ r.data = none
  | .width => r.op = 0x02#8 ∧ r.width = none
  | .height => r.op = 0x02#8 ∧ r.height = none
  | .name => r.op = 0x04#8 ∧ r.name = none
  | .colorBits => r.op = 0x05#8 ∧ r.colorBits = none
  | .sizeBits => r.op = 0x05#8 ∧ r.sizeBits = none

/-- The eleven format codes (30_encoding.md R62). -/
abbrev codes : List Byte :=
  [0x00#8, 0x10#8, 0x18#8, 0x40#8, 0x48#8, 0x60#8, 0x68#8, 0x70#8, 0x80#8, 0x88#8, 0x90#8]

/-- The table of bpp (40_catalog.md R100). -/
abbrev bppTable : List (Byte × Nat) :=
  [(0x00#8, 1), (0x10#8, 16), (0x18#8, 32), (0x40#8, 4), (0x48#8, 8), (0x60#8, 4), (0x68#8, 8),
   (0x70#8, 16), (0x80#8, 4), (0x88#8, 8), (0x90#8, 4)]

/-- The name table (40_catalog.md R102). -/
abbrev names : List (String × Byte) :=
  [("1bpp", 0x00#8), ("rgba16", 0x10#8), ("rgba32", 0x18#8), ("ci4", 0x40#8), ("ci8", 0x48#8),
   ("ia4", 0x60#8), ("ia8", 0x68#8), ("ia16", 0x70#8), ("i4", 0x80#8), ("i8", 0x88#8)]

/-- `t` is fold(s): 'A' to 'Z' replaced by 'a' to 'z', every other character unchanged (R102). -/
abbrev Folds (s t : Text) : Prop :=
  List.Forall₂ (fun c d => d.toNat = if 65 ≤ c.toNat ∧ c.toNat ≤ 90 then c.toNat + 32 else c.toNat) s t

/-- The code of a name (40_catalog.md R102). -/
abbrev CodeOf (name : Text) (c : Byte) : Prop :=
  ∃ t, Folds name t ∧
    ((∃ n, (n, c) ∈ names ∧ n.toList = t) ∨ ((∀ e ∈ names, e.1.toList ≠ t) ∧ c = 0x10#8))

/-- W and H of a request of ENCODE or DECODE (10_state.md R21). -/
abbrev DimsAre (r : Request) (w h : Nat) : Prop :=
  (r.op = 0x01#8 ∧ ∃ p, r.pixels = some p ∧ p.width = w ∧ p.height = h) ∨
  (r.op = 0x02#8 ∧ r.width = some w ∧ r.height = some h)

/-- G(fmt) of the eleven codes (30_encoding.md R62). -/
abbrev groups : List (Byte × Nat) :=
  [(0x00#8, 8), (0x10#8, 1), (0x18#8, 1), (0x40#8, 2), (0x48#8, 1), (0x60#8, 2), (0x68#8, 1),
   (0x70#8, 1), (0x80#8, 2), (0x88#8, 1), (0x90#8, 2)]

/-- The condition of each error of a request (60_exceptions.md R170). -/
abbrev Condition (cfg : Config) (r : Request) : Status → Prop
  | .ok => False
  | .illegalOp => r.op = 0x00#8 ∨ 6 ≤ r.op.toNat
  | .unsupportedFormat =>
    (r.op = 0x01#8 ∧ (r.fmt ∉ codes ∨ r.fmt = 0x40#8 ∨ r.fmt = 0x48#8)) ∨ (r.op = 0x02#8 ∧ r.fmt ∉ codes)
  | .dimension => ∃ w h g, DimsAre r w h ∧ (r.fmt, g) ∈ groups ∧
      BadDims cfg g (if r.fmt = 0x00#8 then 8 else 1) w h
  | .length =>
    (r.op = 0x01#8 ∧ ∃ p, r.pixels = some p ∧ p.pixels.length ≠ p.width * p.height) ∨
    (r.op = 0x02#8 ∧ ∃ d w h b, r.data = some d ∧ r.width = some w ∧ r.height = some h ∧
      (r.fmt, b) ∈ bppTable ∧ d.length ≠ (w * h * b + 7) / 8)
  | .missingPalette => r.op = 0x02#8 ∧ (r.fmt = 0x40#8 ∨ r.fmt = 0x48#8) ∧ r.palette = none
  | .paletteIndex => r.op = 0x02#8 ∧ ∃ d w h pal k v, r.data = some d ∧ r.width = some w ∧
      r.height = some h ∧ r.palette = some pal ∧ k < w * h ∧ pal.length ≤ v ∧
      ((r.fmt = 0x40#8 ∧ NibbleIs d k v) ∨ (r.fmt = 0x48#8 ∧ ByteIs d k v))

/-- The packed palette index of pixel k of a DECODE of CI4 or CI8 is v (20_memory.md R46). -/
abbrev IndexAt (r : Request) (k v : Nat) : Prop := ∃ d w h, r.data = some d ∧ r.width = some w ∧
  r.height = some h ∧ k < w * h ∧ ((r.fmt = 0x40#8 ∧ NibbleIs d k v) ∨ (r.fmt = 0x48#8 ∧ ByteIs d k v))

/-- The pixel that a decode of the encoding of `p` gives, per format code (42_decode.md R154). -/
abbrev roundTrip (cfg : Config) : List (Byte × (Pixel → Pixel → Prop)) :=
  [(0x18#8, fun p p' => p' = p),
   (0x10#8, fun p p' => PixelIs p' (p.r.toNat / 8 * 8) (p.g.toNat / 8 * 8) (p.b.toNat / 8 * 8)
      (if p.a.toNat = 255 then 255 else 0)),
   (0x70#8, fun p p' => PixelIs p' (avg p) (avg p) (avg p) p.a.toNat),
   (0x68#8, fun p p' => PixelIs p' (avg p / 16 * 16) (avg p / 16 * 16) (avg p / 16 * 16)
      (p.a.toNat / 16 * 16)),
   (0x60#8, fun p p' => PixelIs p' (avg p / 32 * 32) (avg p / 32 * 32) (avg p / 32 * 32)
      (if p.a.toNat = 255 then 255 else 0)),
   (0x88#8, fun p p' => PixelIs p' (avg p) (avg p) (avg p) (avg p)),
   (0x80#8, fun p p' => PixelIs p' (avg p / 16 * 16) (avg p / 16 * 16) (avg p / 16 * 16)
      (if cfg.i4DecodeAlpha = .opaque255 then 255 else avg p / 16 * 16)),
   (0x90#8, fun p p' => PixelIs p' (avg p / 16 * 16) (avg p / 16 * 16) (avg p / 16 * 16)
      (if cfg.i4DecodeAlpha = .opaque255 then 255 else avg p / 16 * 16)),
   (0x00#8, fun p p' => PixelIs p' (if 0 < p.a.toNat then 255 else 0) (if 0 < p.a.toNat then 255 else 0)
      (if 0 < p.a.toNat then 255 else 0) (if 0 < p.a.toNat then 255 else 0))]

end Sys2Proof.Claims

open Sys2Proof Sys2Proof.Machine Sys2Proof.Claims

/-! ## The machine -/

/-- R31, R24: after reset the codec holds nothing, and the configuration has this spec's values. (That the
model's own fields `order` and `draws` are empty and 0 is its choice, log 2 and 3, and is not stated.) -/
def Obligations.ResetHoldsNothingButTheConfiguration : Prop :=
  State.reset.pending = [] ∧ State.reset.response = none ∧
  State.reset.config.i4DecodeAlpha = .opaque255 ∧ State.reset.config.maxPixels = none

/-- The frame of every instruction: it answers or draws for the transaction whose turn it is, which leaves
`pending`; every other transaction stays as it is, in its order, and so does the configuration; `order` and
`draws` are the model's own (log 2, log 3). Rests on R47, R48 and R191. -/
def Obligations.InstructionFrame : Prop :=
  ∀ (i : Instr) (s s' : State), exec i s = .next s' →
    s.turn < s.pending.length ∧
    s'.pending = s.pending.take s.turn ++ s.pending.drop (s.turn + 1) ∧
    s'.config = s.config ∧ s'.order = s.order.tail ∧ s'.response.isSome ∧
    (s'.draws = s.draws ∨
      (s'.draws = s.draws + 1 ∧ ∃ t, s.current = some t ∧ t.changed ≠ []))

/-- R191, R24: no step changes the configuration, and neither does a reset. -/
def Obligations.NothingChangesTheConfiguration : Prop :=
  ∀ s : State, s.applyReset.config = s.config ∧ ∀ s', step s = .next s' → s'.config = s.config

/-- R190 and R30: a transaction in progress when a reset is applied gives no response; presented again, it
gives the answer it would have had. That the reset also lets go a response that is still held is no rule of
the spec: it is the model's deduction (log 9) about its own choice to hold one (log 1). -/
def Obligations.ResetCutsTransactionsShort : Prop :=
  ∀ (s : State) (t : Transaction), s.current = some t → t.changed = [] → t.request.wellFormed = true →
    s.applyReset.pending = [] ∧ s.applyReset.response = none ∧
    deliveredBy (step s.applyReset) = none ∧
    ∃ s', s.applyReset.present t.request = .ok s' ∧ deliveredBy (step s') = deliveredBy (step s)

/-- A step runs the instruction that the command of the current transaction decodes to. -/
def Obligations.StepRunsTheDecodedInstruction : Prop :=
  ∀ (s : State) (t : Transaction) (i : Instr), s.current = some t → decode t.request.cmd = .instr i →
    step s = exec i s

/-- The other half of a step: with no transaction in progress it changes nothing but to let the delivered
response go (the model's choice, log 1). -/
def Obligations.StepIdlesWithoutATransaction : Prop :=
  ∀ s : State, s.pending = [] → step s = .next { s with response := none }

/-- R65 and R170: what a step answers to a reserved command whose operands are present (R171) and whose inputs
the host left alone (R195). -/
def Obligations.ReservedCommandsAnswerTheirError : Prop :=
  ∀ (s : State) (r : Request),
    (s.Serves r → (r.op = 0x00#8 ∨ 6 ≤ r.op.toNat) →
      step s = .next (s.answer (.error (.illegalOp r.op)))) ∧
    (s.Serves r → r.op = 0x01#8 → r.pixels.isSome → r.fmt ∉ codes →
      step s = .next (s.answer (.error (.unsupportedFormat 0x01#8 r.fmt)))) ∧
    (s.Serves r → r.op = 0x02#8 → r.data.isSome → r.width.isSome → r.height.isSome →
      r.fmt ∉ codes → step s = .next (s.answer (.error (.unsupportedFormat 0x02#8 r.fmt)))) ∧
    (s.Serves r → r.op = 0x03#8 → r.fmt ∉ codes → step s = .next (s.answer (.ok (.bits 16))))

/-- R171: a request that lacks an operand field its operation reads is refused at the interface, and an
absent palette is not such a case. Three points are the model's: which of several missing fields is named (log
8), that a step refuses such a request too, and that it does so before the error of ENC.CI4, ENC.CI8 or a
reserved fmt (log 11). -/
def Obligations.MissingOperandIsRefused : Prop :=
  ∀ (s : State) (t : Transaction), s.current = some t →
    ((∃ f, Lacks t.request f) → ∃ f, Lacks t.request f ∧ step s = .refused (.missingOperand f) ∧
      s.present t.request = .error (.missingOperand f)) ∧
    (t.request.op = 0x02#8 → t.request.data.isSome → t.request.width.isSome → t.request.height.isSome →
      ∃ s', step s = .next s')

/-- R195: a transaction one of whose input buffers the host changed, read or not, draws a response: the free
one, of which nothing is known. It does so whatever its command is, a reserved op and a reserved fmt among
them, and where the command is an instruction, it is that instruction that draws. The form of the draw is the
model's choice (log 3). -/
def Obligations.ChangedInputsDrawTheResponse : Prop :=
  ∀ (s : State) (t : Transaction), s.current = some t → t.request.wellFormed = true → t.changed ≠ [] →
    (∃ s', step s = .next s' ∧ s'.response = some (Config.freeResponse s.draws) ∧
      s'.draws = s.draws + 1 ∧ s'.pending = s.pending.eraseIdx s.turn ∧ s'.config = s.config ∧
      s'.order = s.order.tail) ∧
    ∀ i, decode t.request.cmd = .instr i → exec i s = step s

/-- The states where every request in progress has its operands (R171) answer every step, and stay so: from
one of them the machine never stops. -/
def Obligations.WellFormedStatesAlwaysStep : Prop :=
  ∀ s : State, s.wellFormed = true → ∃ s', step s = .next s' ∧ s'.wellFormed = true

/-- The reset state is such a state. -/
def Obligations.ResetStateIsWellFormed : Prop := State.reset.wellFormed = true

/-- The interface lets only such requests in: presenting keeps the invariant, and appends the request
(R171, R193). -/
def Obligations.PresentKeepsWellFormed : Prop :=
  ∀ (s s' : State) (r : Request), s.wellFormed = true → s.present r = .ok s' →
    s'.wellFormed = true ∧ s'.pending = s.pending ++ [⟨r, []⟩] ∧ s'.config = s.config

/-- R173: a transaction "always ends with its response". From a well-formed state with n transactions in
progress, each of the next n steps ends one of them, the one whose turn it is, and delivers a response; after
them none is left. -/
def Obligations.EveryTransactionEnds : Prop :=
  ∀ s : State, s.wellFormed = true →
    (∀ k < s.pending.length, ∃ a b resp, Sys2Proof.core.run k s = .next a ∧
      a.pending.length + k = s.pending.length ∧ step a = .next b ∧ b.response = some resp ∧
      b.pending = a.pending.eraseIdx a.turn) ∧
    ∃ s' : State, Sys2Proof.core.run s.pending.length s = .next s' ∧ s'.pending = [] ∧ s'.config = s.config

/-- R30, R51, R180: the response to a transaction is the one it would have alone, whatever else is in
progress, in whatever order, and whatever was answered before. -/
def Obligations.ResponseIsTheOneItWouldHaveAlone : Prop :=
  ∀ (s : State) (t : Transaction), s.current = some t → t.changed = [] → t.request.wellFormed = true →
    ∃ resp, deliveredBy (step s) = some resp ∧ responseTo s.config t.request = some resp

/-- R21: "a field an operation does not read is ignored by it, whatever it holds": two requests of one
operation that agree in the fields it reads have one response. The palette is read for CI4 and CI8 alone
(R140), and N2C and C2N ignore the format byte (R61). -/
def Obligations.UnreadFieldsAreIgnored : Prop :=
  ∀ (cfg : Config) (r r' : Request), r'.op = r.op →
    (r.op = 0x01#8 ∨ r.op = 0x02#8 ∨ r.op = 0x03#8 → r'.fmt = r.fmt) →
    (r.op = 0x01#8 → r'.pixels = r.pixels) →
    (r.op = 0x02#8 → r'.data = r.data ∧ r'.width = r.width ∧ r'.height = r.height ∧
      (r.fmt = 0x40#8 ∨ r.fmt = 0x48#8 → r'.palette = r.palette)) →
    (r.op = 0x04#8 → r'.name = r.name) →
    (r.op = 0x05#8 → r'.colorBits = r.colorBits ∧ r'.sizeBits = r.sizeBits) →
    responseTo cfg r' = responseTo cfg r

/-- R172 with the causes of R170: the status reported is the first, in the order of their numbers, of those
whose condition holds, and OK where none does; E_PALETTE_INDEX is reported for the smallest pixel index. -/
def Obligations.FirstErrorInPriorityIsReported : Prop :=
  ∀ (s : State) (t : Transaction), s.current = some t → t.changed = [] → t.request.wellFormed = true →
    ∃ resp, deliveredBy (step s) = some resp ∧
      (resp.status ≠ .ok → Condition s.config t.request resp.status) ∧
      (∀ st, Condition s.config t.request st → resp.status ≠ .ok ∧ resp.status.number ≤ st.number) ∧
      ∀ i v l, resp = .error (.paletteIndex i v l) → ∀ pal, t.request.palette = some pal →
        ∀ k u, IndexAt t.request k u → pal.length ≤ u → i ≤ k

/-- R170: the numbers of the statuses, and the status of each error report. -/
def Obligations.StatusNumbersAreZeroToSix : Prop :=
  (∀ v, (Response.ok v).status.number = 0 ∧ (Response.ok v).result = some v) ∧
  (∀ op, (Response.error (.illegalOp op)).status.number = 1) ∧
  (∀ op f, (Response.error (.unsupportedFormat op f)).status.number = 2) ∧
  (∀ w h g, (Response.error (.dimension w h g)).status.number = 3) ∧
  (∀ e a, (Response.error (.length e a)).status.number = 4) ∧
  (∀ f, (Response.error (.missingPalette f)).status.number = 5) ∧
  (∀ i k l, (Response.error (.paletteIndex i k l)).status.number = 6) ∧
  (∀ e, (Response.error e).result = none)

/-! ## Encoding -/

/-- The decoder accepts exactly the command words of the instructions, and each has one meaning. For N2C and
C2N, whose low byte R61 lets be ignored, that no bit of the word is dropped is the model's choice: the
instruction holds the byte (log 12). -/
def Obligations.DecodeAcceptsExactlyTheEncodings : Prop :=
  ∀ (w : Half) (i : Instr), decode w = .instr i ↔ w = encode i

/-- R61, R62, R65: the reserved command words are rejected, each by the name of what is reserved in it. -/
def Obligations.ReservedWordsAreRejectedByName : Prop :=
  ∀ w : Half,
    (∀ op, decode w = .illegalOp op ↔
      (op.toNat = w.toNat / 256 ∧ (op.toNat = 0 ∨ 6 ≤ op.toNat))) ∧
    (∀ f, decode w = .reservedEncodeFormat f ↔ (w.toNat = 0x0100 + f.toNat ∧ f ∉ codes)) ∧
    (∀ f, decode w = .reservedDecodeFormat f ↔ (w.toNat = 0x0200 + f.toNat ∧ f ∉ codes))

/-- A few words written from R64. -/
def Obligations.TableWordsDecodeToTheirInstruction : Prop :=
  decode 0b0000000100010000#16 = .instr .encRgba16 ∧ decode 0b0000001001100000#16 = .instr .decIa4 ∧
  decode 0b0000001110010000#16 = .instr (.bpp 0x90#8) ∧ decode 0b0000010010101011#16 = .instr (.n2c 0xAB#8) ∧
  decode 0b0000010111111111#16 = .instr (.c2n 0xFF#8)

/-- The host's placing of a command word, from any state: the next step runs exactly that instruction, to a
next state (the model's choice of how a command comes in, log 10). -/
def Obligations.PlacedCommandRunsNext : Prop :=
  ∀ (s : State) (i : Instr),
    (s.withFetchWord 16 (encode i).toNat).fetch = some (.instr i) ∧
    (s.withFetchWord 16 (encode i).toNat).config = s.config ∧
    ∃ s', step (s.withFetchWord 16 (encode i).toNat) = .next s' ∧
      exec i (s.withFetchWord 16 (encode i).toNat) = .next s'

/-- R67: a pseudo-instruction is N2C and then the real command with the code it answered and the operands
given; an unknown name encodes RGBA16. -/
def Obligations.PseudoInstructionExpandsThroughItsName : Prop :=
  ∀ (cfg : Config) (name : Text) (p : PixelBuffer) (d : List Byte) (w h : Nat) (pal : Option (List Half)),
    (PseudoLine.enc name p).first = .n2c name ∧ (PseudoLine.dec name d w h pal).first = .n2c name ∧
    (PseudoLine.bpp name).first = .n2c name ∧
    ∃ c, CodeOf name c ∧ responseTo cfg (AsmLine.n2c name).request = some (.ok (.code c)) ∧
      (PseudoLine.enc name p).second (.ok (.code c)) = some (.enc c p) ∧
      (PseudoLine.dec name d w h pal).second (.ok (.code c)) = some (.dec c d w h pal) ∧
      (PseudoLine.bpp name).second (.ok (.code c)) = some (.bpp c) ∧
      (AsmLine.enc c p).request.op = 0x01#8 ∧ (AsmLine.enc c p).request.fmt = c ∧
      (AsmLine.dec c d w h pal).request.op = 0x02#8 ∧ (AsmLine.dec c d w h pal).request.fmt = c ∧
      (AsmLine.bpp c).request.op = 0x03#8 ∧ (AsmLine.bpp c).request.fmt = c ∧
      (AsmLine.enc c p).request.pixels = some p ∧ (AsmLine.dec c d w h pal).request.data = some d ∧
      (AsmLine.dec c d w h pal).request.width = some w ∧ (AsmLine.dec c d w h pal).request.height = some h ∧
      (AsmLine.dec c d w h pal).request.palette = pal ∧
      ((∀ t, Folds name t → ∀ e ∈ names, e.1.toList ≠ t) →
        decode (AsmLine.enc c p).request.cmd = .instr .encRgba16)

/-! ## Arithmetic -/

/-- R14: the two helper functions. The last clause, that the quantizer is a shift, is the spec's own inference
there ("For every c in 0..255, `q_n(c) = c >> (8 - n)` [derived: ...]"). -/
def Obligations.HelperFunctionsOfTheSpec : Prop :=
  (∀ r g b : Byte, (Machine.avg r g b).toNat = (r.toNat + g.toNat + b.toNat) / 3) ∧
  ∀ n, (n = 3 ∨ n = 4 ∨ n = 5) → ∀ c : Byte,
    (quantize n c).toNat = q n c.toNat ∧ q n c.toNat = c.toNat >>> (8 - n)

/-- R141: Expand16. The range of its channels is the spec's own inference there ("Each color channel of the
result is a multiple of 8 in 0..248 ... [derived: from rule R141]"). -/
def Obligations.ExpansionOfASixteenBitValue : Prop :=
  ∀ v : Half, Expands (expand16 v) v.toNat ∧
    (expand16 v).r.toNat ≤ 248 ∧ (expand16 v).g.toNat ≤ 248 ∧ (expand16 v).b.toNat ≤ 248 ∧
    8 ∣ (expand16 v).r.toNat ∧ 8 ∣ (expand16 v).g.toNat ∧ 8 ∣ (expand16 v).b.toNat

/-- R42: a palette given as bytes has entry k equal to `byte[2k] << 8 | byte[2k+1]`. That the last of an odd
number of bytes makes no entry is the model's choice (log 15). -/
def Obligations.PaletteBytesAreBigEndianEntries : Prop :=
  ∀ bs : List Byte, (paletteOfBytes bs).length = bs.length / 2 ∧
    ∀ (k : Nat) (e : Half), (paletteOfBytes bs)[k]? = some e → HalfIs bs (2 * k) e.toNat

/-! ## The catalog -/

/-- R101 with R100, for a request whose inputs the host left alone (R195). -/
def Obligations.BppAnswersTheTableOrSixteen : Prop :=
  ∀ (fmt : Byte) (s : State) (r : Request), s.Serves r →
    decode (0x03#8 ++ fmt) = .instr (.bpp fmt) ∧
    ∃ n, Answers (.bpp fmt) s (.ok (.bits n)) ∧ ((fmt, n) ∈ bppTable ∨ (fmt ∉ codes ∧ n = 16))

/-- R103 with R102, for a request whose inputs the host left alone (R195). -/
def Obligations.NameToCodeFoldsAndDefaults : Prop :=
  ∀ (x : Byte) (s : State) (r : Request) (name : Text), s.Serves r → r.name = some name →
    decode (0x04#8 ++ x) = .instr (.n2c x) ∧
    ∃ c, Answers (.n2c x) s (.ok (.code c)) ∧ CodeOf name c

/-- R105 with R104, for a request whose inputs the host left alone (R195). -/
def Obligations.CodeToNameReadsThreeAndTwoBits : Prop :=
  ∀ (x : Byte) (s : State) (r : Request) (c z : Byte), s.Serves r → r.colorBits = some c →
    r.sizeBits = some z →
    decode (0x05#8 ++ x) = .instr (.c2n x) ∧
    ∃ model size,
      ["RGBA", "YUV", "CI", "IA", "I", "Unknown", "Unknown", "Unknown"][c.toNat % 8]? = some model ∧
      ["4", "8", "16", "32"][z.toNat % 4]? = some size ∧
      Answers (.c2n x) s (.ok (.label (model.toList ++ size.toList)))

/-- Names and labels agree on the nine field-structured codes, and give 0x10 on the other two. Rests on R100,
R102 and R104; it is the spec's own inference (R106: "These are consequences, not further requirements"). -/
def Obligations.LabelsNameTheirCode : Prop :=
  (∀ c ∈ [0x10#8, 0x18#8, 0x40#8, 0x48#8, 0x60#8, 0x68#8, 0x70#8, 0x80#8, 0x88#8],
    nameToCode (codeToName (c >>> 5) ((c >>> 3) &&& 3#8)) = c) ∧
  (∀ c ∈ [0x00#8, 0x90#8], nameToCode (codeToName (c >>> 5) ((c >>> 3) &&& 3#8)) = 0x10#8) ∧
  (∀ e ∈ [("1bpp", 1), ("rgba16", 16), ("rgba32", 32), ("ci4", 4), ("ci8", 8), ("ia4", 4), ("ia8", 8),
      ("ia16", 16), ("i4", 4), ("i8", 8)], bpp (nameToCode e.1.toList) = e.2)

/-- R62: the format, color model, bits per pixel and pixel group of each of the eleven codes. -/
def Obligations.FormatCodesOfTheCatalog : Prop :=
  codes.map (fun c => (formatOfCode c, bpp c, groupSize c)) =
    [(some .oneBitAlpha, 1, 8), (some .rgba16, 16, 1), (some .rgba32, 32, 1), (some .ci4, 4, 2),
     (some .ci8, 8, 1), (some .ia4, 4, 2), (some .ia8, 8, 1), (some .ia16, 16, 1), (some .i4, 4, 2),
     (some .i8, 8, 1), (some .i4, 4, 2)] ∧
  (∀ c, c ∉ codes → formatOfCode c = none) ∧
  [Format.oneBitAlpha, .rgba16, .rgba32, .ci4, .ci8, .ia4, .ia8, .ia16, .i4, .i8].map Format.colorModel =
    [none, some .rgba, some .rgba, some .colorIndexed, some .colorIndexed, some .intensityAlpha,
     some .intensityAlpha, some .intensityAlpha, some .intensity, some .intensity]

/-! ## The encoders -/

/-- R111. -/
def Obligations.EncodeOneBitAlpha : Prop :=
  Encodes 0x0100#16 .encOneBpp 8 8 fun p out => out.length = p.width * p.height / 8 ∧
    ∀ (k : Nat) (x : Pixel), p.pixels[k]? = some x →
      ∃ b, out[k / 8]? = some b ∧ b.getLsbD (7 - k % 8) = decide (0 < x.a.toNat)

/-- R112. -/
def Obligations.EncodeRgba16 : Prop :=
  Encodes 0x0110#16 .encRgba16 1 1 fun p out => out.length = 2 * (p.width * p.height) ∧
    ∀ (k : Nat) (x : Pixel), p.pixels[k]? = some x → HalfIs out (2 * k)
      (q 5 x.r.toNat <<< 11 ||| q 5 x.g.toNat <<< 6 ||| q 5 x.b.toNat <<< 1 ||| flag x)

/-- R113. -/
def Obligations.EncodeRgba32 : Prop :=
  Encodes 0x0118#16 .encRgba32 1 1 fun p out => out.length = 4 * (p.width * p.height) ∧
    ∀ (k : Nat) (x : Pixel), p.pixels[k]? = some x →
      out[4 * k]? = some x.r ∧ out[4 * k + 1]? = some x.g ∧ out[4 * k + 2]? = some x.b ∧
      out[4 * k + 3]? = some x.a

/-- R114. -/
def Obligations.EncodeIa4 : Prop :=
  Encodes 0x0160#16 .encIa4 2 1 fun p out => out.length = p.width * p.height / 2 ∧
    ∀ (k : Nat) (x : Pixel), p.pixels[k]? = some x → NibbleIs out k (q 3 (avg x) <<< 1 ||| flag x)

/-- R115. -/
def Obligations.EncodeIa8 : Prop :=
  Encodes 0x0168#16 .encIa8 1 1 fun p out => out.length = p.width * p.height ∧
    ∀ (k : Nat) (x : Pixel), p.pixels[k]? = some x → ByteIs out k (q 4 (avg x) <<< 4 ||| q 4 x.a.toNat)

/-- R116. -/
def Obligations.EncodeIa16 : Prop :=
  Encodes 0x0170#16 .encIa16 1 1 fun p out => out.length = 2 * (p.width * p.height) ∧
    ∀ (k : Nat) (x : Pixel), p.pixels[k]? = some x →
      ByteIs out (2 * k) (avg x) ∧ ByteIs out (2 * k + 1) x.a.toNat

/-- R117. -/
def Obligations.EncodeI4 : Prop :=
  Encodes 0x0180#16 .encI4 2 1 fun p out => out.length = p.width * p.height / 2 ∧
    ∀ (k : Nat) (x : Pixel), p.pixels[k]? = some x → NibbleIs out k (q 4 (avg x))

/-- R118: as ENC.I4, and the same answer as ENC.I4 from every state. -/
def Obligations.EncodeI4SecondCode : Prop :=
  (Encodes 0x0190#16 .encI4Alt 2 1 fun p out => out.length = p.width * p.height / 2 ∧
    ∀ (k : Nat) (x : Pixel), p.pixels[k]? = some x → NibbleIs out k (q 4 (avg x))) ∧
  ∀ s : State, exec .encI4Alt s = exec .encI4 s

/-- R119. -/
def Obligations.EncodeI8 : Prop :=
  Encodes 0x0188#16 .encI8 1 1 fun p out => out.length = p.width * p.height ∧
    ∀ (k : Nat) (x : Pixel), p.pixels[k]? = some x → ByteIs out k (avg x)

/-- R120 and R121, for a request whose pixels are present and whose inputs the host left alone: without pixels
it is refused (log 11), and where an input was changed it draws (log 3). -/
def Obligations.EncodeIndexedIsUnsupported : Prop :=
  decode 0x0140#16 = .instr .encCi4 ∧ decode 0x0148#16 = .instr .encCi8 ∧
  ∀ (s : State) (r : Request) (p : PixelBuffer), s.Serves r → r.pixels = some p →
    Answers .encCi4 s (.error (.unsupportedFormat 0x01#8 0x40#8)) ∧
    Answers .encCi8 s (.error (.unsupportedFormat 0x01#8 0x48#8))

/-! ## The decoders -/

/-- R142. -/
def Obligations.DecodeOneBitAlpha : Prop :=
  Decodes 0x0200#16 .decOneBpp 8 8 (fun n => n / 8) "RGBA4" fun _ d k p =>
    ∃ b, d[k / 8]? = some b ∧
      (if b.getLsbD (7 - k % 8) then PixelIs p 255 255 255 255 else PixelIs p 0 0 0 0)

/-- R143. -/
def Obligations.DecodeRgba16 : Prop :=
  Decodes 0x0210#16 .decRgba16 1 1 (fun n => 2 * n) "RGBA16" fun _ d k p =>
    ∃ v, HalfIs d (2 * k) v ∧ Expands p v

/-- R144. -/
def Obligations.DecodeRgba32 : Prop :=
  Decodes 0x0218#16 .decRgba32 1 1 (fun n => 4 * n) "RGBA32" fun _ d k p =>
    d[4 * k]? = some p.r ∧ d[4 * k + 1]? = some p.g ∧ d[4 * k + 2]? = some p.b ∧
    d[4 * k + 3]? = some p.a

/-- R145. -/
def Obligations.DecodeIa16 : Prop :=
  Decodes 0x0270#16 .decIa16 1 1 (fun n => 2 * n) "IA16" fun _ d k p =>
    d[2 * k]? = some p.r ∧ p.g = p.r ∧ p.b = p.r ∧ d[2 * k + 1]? = some p.a

/-- R146. -/
def Obligations.DecodeIa8 : Prop :=
  Decodes 0x0268#16 .decIa8 1 1 (fun n => n) "IA8" fun _ d k p =>
    ∃ b, ByteIs d k b ∧ PixelIs p (b / 16 * 16) (b / 16 * 16) (b / 16 * 16) (b % 16 * 16)

/-- R147. -/
def Obligations.DecodeIa4 : Prop :=
  Decodes 0x0260#16 .decIa4 2 1 (fun n => n / 2) "IA4" fun _ d k p =>
    ∃ b, ByteIs d (k / 2) b ∧
      if k % 2 = 0 then
        PixelIs p (b / 32 * 32) (b / 32 * 32) (b / 32 * 32) (if b / 16 % 2 = 1 then 255 else 0)
      else
        PixelIs p (b / 2 % 8 * 32) (b / 2 % 8 * 32) (b / 2 % 8 * 32) (if b % 2 = 1 then 255 else 0)

/-- R148. -/
def Obligations.DecodeI8 : Prop :=
  Decodes 0x0288#16 .decI8 1 1 (fun n => n) "I8" fun _ d k p =>
    d[k]? = some p.r ∧ p.g = p.r ∧ p.b = p.r ∧ p.a = p.r

/-- R149, for either value of I4_DECODE_ALPHA. -/
def Obligations.DecodeI4 : Prop :=
  Decodes 0x0280#16 .decI4 2 1 (fun n => n / 2) "I4" fun cfg d k p =>
    ∃ n, NibbleIs d k n ∧
      PixelIs p (n * 16) (n * 16) (n * 16) (if cfg.i4DecodeAlpha = .opaque255 then 255 else n * 16)

/-- R150: as DEC.I4 but for the metadata name. -/
def Obligations.DecodeI4SecondCode : Prop :=
  Decodes 0x0290#16 .decI4Alt 2 1 (fun n => n / 2) "I16" fun cfg d k p =>
    ∃ n, NibbleIs d k n ∧
      PixelIs p (n * 16) (n * 16) (n * 16) (if cfg.i4DecodeAlpha = .opaque255 then 255 else n * 16)

/-- R152 with R151. -/
def Obligations.DecodeCi4ThroughThePalette : Prop :=
  DecodesIndexed 0x0240#16 .decCi4 0x40#8 2 (fun n => n / 2) "CI4" NibbleIs

/-- R153 with R151. -/
def Obligations.DecodeCi8ThroughThePalette : Prop :=
  DecodesIndexed 0x0248#16 .decCi8 0x48#8 1 (fun n => n) "CI8" ByteIs

/-! ## Round trips -/

/-- R28, R100: the bytes of an ENCODE are `ceil(width*height*bitsPerPixel/8)` many. -/
def Obligations.EncodedLengthIsPackedLen : Prop :=
  ∀ (cfg : Config) (fmt : Byte) (p : PixelBuffer) (out : List Byte),
    responseTo cfg (AsmLine.enc fmt p).request = some (.ok (.bytes out)) →
    ∃ b, (fmt, b) ∈ bppTable ∧ out.length = (p.width * p.height * b + 7) / 8

/-- R29 and R27: the result of a DECODE holds exactly W * H pixels and carries its metadata record. -/
def Obligations.DecodeResultHoldsItsPixelsAndMetadata : Prop :=
  ∀ (cfg : Config) (fmt : Byte) (d : List Byte) (w h : Nat) (pal : Option (List Half)) (px : PixelBuffer)
    (m : Metadata),
    responseTo cfg (AsmLine.dec fmt d w h pal).request = some (.ok (.picture px m)) →
    px.width = w ∧ px.height = h ∧ px.pixels.length = w * h ∧
    m.width = w ∧ m.height = h ∧ m.name = codeToName (fmt >>> 5) ((fmt >>> 3) &&& 3#8)

/-- The pixels that come back from an encode and a decode, per format: the first law of R154, the spec's own
inference ("[derived: from 00_scope.md rule R14, 41_encode.md rules R111 to R119 and rules R141 to R149]"). -/
def Obligations.DecodeOfEncodePerFormat : Prop :=
  ∀ (cfg : Config) (fmt : Byte) (Back : Pixel → Pixel → Prop) (p : PixelBuffer) (out : List Byte),
    (fmt, Back) ∈ roundTrip cfg →
    responseTo cfg (AsmLine.enc fmt p).request = some (.ok (.bytes out)) →
    ∃ px m, responseTo cfg (AsmLine.dec fmt out p.width p.height none).request
        = some (.ok (.picture ⟨p.width, p.height, px⟩ m)) ∧
      List.Forall₂ Back p.pixels px

/-- enc(dec(d)) = d for every non-CI format and every data of the right length: the second law of R154, the
spec's own inference. -/
def Obligations.EncodeOfDecodeIsTheData : Prop :=
  ∀ (cfg : Config) (fmt : Byte) (d : List Byte) (w h : Nat) (px : PixelBuffer) (m : Metadata),
    fmt ≠ 0x40#8 → fmt ≠ 0x48#8 →
    responseTo cfg (AsmLine.dec fmt d w h none).request = some (.ok (.picture px m)) →
    responseTo cfg (AsmLine.enc fmt px).request = some (.ok (.bytes d))
end

