-- ==== Sys2Proof/Laws/Fields.lean ====
section
/-! SUPPORT. The arithmetic helpers as numbers, the bit fields of the packed formats, and the reads and
writes of the byte space: one lemma for what each shared function gives. -/

namespace Sys2Proof.Machine

/-! ## Arithmetic -/

theorem avg_toNat (r g b : Byte) : (avg r g b).toNat = (r.toNat + g.toNat + b.toNat) / 3 := by
  have := r.isLt; have := g.isLt; have := b.isLt
  simp only [avg, BitVec.toNat_ofNat]
  omega

theorem Pixel.avg_toNat (p : Pixel) : p.avg.toNat = (p.r.toNat + p.g.toNat + p.b.toNat) / 3 :=
  Machine.avg_toNat _ _ _

theorem avg_self (c : Byte) : avg c c c = c := by
  apply BitVec.eq_of_toNat_eq
  rw [avg_toNat]
  omega

@[simp] theorem avg_grey (i a : Byte) : (grey i a).avg = i := avg_self i

theorem quantize_toNat (n : Nat) (c : Byte) :
    (quantize n c).toNat = min (2 ^ n - 1) (c.toNat * 2 ^ n / 255) := by
  have : 0 < 2 ^ n := Nat.two_pow_pos n
  simp only [quantize, BitVec.toNat_ofNat]
  exact Nat.mod_eq_of_lt (by omega)

/-- The quantizer is a shift: "For every c in 0..255, q_n(c) = c >> (8 - n)" (00_scope.md R14). -/
theorem quantize_eq_div (c : Byte) : (quantize 3 c).toNat = c.toNat / 32 ∧
    (quantize 4 c).toNat = c.toNat / 16 ∧ (quantize 5 c).toNat = c.toNat / 8 := by
  revert c; decide

theorem scale_toNat {n factor : Nat} (c : BitVec n) (h : 2 ^ n * factor ≤ 256) :
    (scale factor c).toNat = c.toNat * factor := by
  simp only [scale, BitVec.toNat_ofNat]
  apply Nat.mod_eq_of_lt
  have hc := c.isLt
  rcases Nat.eq_zero_or_pos factor with rfl | hf
  · simp
  · calc c.toNat * factor < 2 ^ n * factor := Nat.mul_lt_mul_of_pos_right hc hf
      _ ≤ 2 ^ 8 := h

theorem opaqueFlag_toNat (a : Byte) : (opaqueFlag a).toNat = if a.toNat = 255 then 1 else 0 := by
  revert a; decide

theorem maskFlag_toNat (a : Byte) : (maskFlag a).toNat = if 0 < a.toNat then 1 else 0 := by
  revert a; decide

theorem expandFlag_toNat (m : BitVec 1) : (expandFlag m).toNat = if m.toNat = 1 then 255 else 0 := by
  revert m; decide

/-- An expanded field quantizes back to itself, at each of the three widths. -/
theorem quantize_scale : (∀ c : BitVec 3, quantize 3 (scale 32 c) = c) ∧
    (∀ c : BitVec 4, quantize 4 (scale 16 c) = c) ∧ (∀ c : BitVec 5, quantize 5 (scale 8 c) = c) := by
  decide

theorem opaqueFlag_expandFlag (m : BitVec 1) : opaqueFlag (expandFlag m) = m := by revert m; decide

theorem maskFlag_expandFlag (m : BitVec 1) : maskFlag (expandFlag m) = m := by revert m; decide

theorem expandFlag_opaqueFlag (a : Byte) : expandFlag (opaqueFlag a) = if a = 255#8 then 255#8 else 0#8 := by
  revert a; decide

theorem expandFlag_maskFlag (a : Byte) : expandFlag (maskFlag a) = if 0 < a.toNat then 255#8 else 0#8 := by
  revert a; decide

/-! ## Fields of a bit vector -/

/-- The low part of a concatenation. -/
theorem extract_append_low {m n : Nat} (x : BitVec m) (y : BitVec n) : (x ++ y).extractLsb' 0 n = y := by
  ext i hi
  simp [BitVec.getElem_extractLsb', BitVec.getLsbD_append, hi]

/-- The high part of a concatenation. -/
theorem extract_append_high {m n : Nat} (x : BitVec m) (y : BitVec n) :
    (x ++ y).extractLsb' n m = x := by
  ext i hi
  simp [BitVec.getElem_extractLsb', BitVec.getLsbD_append, BitVec.getLsbD_eq_getElem hi]

/-- Two adjoining fields that fill a bit vector are the bit vector. -/
theorem append_extract {m n : Nat} (v : BitVec (m + n)) : v.extractLsb' n m ++ v.extractLsb' 0 n = v := by
  ext i hi
  simp only [BitVec.getElem_append, BitVec.getElem_extractLsb']
  split
  · simp [BitVec.getLsbD_eq_getElem hi]
  · rw [BitVec.getLsbD_eq_getElem (by omega)]
    congr 1
    omega

/-- The value of a concatenation. -/
theorem append_toNat {m n : Nat} (x : BitVec m) (y : BitVec n) :
    (x ++ y).toNat = x.toNat * 2 ^ n + y.toNat := by
  rw [BitVec.toNat_append, Nat.shiftLeft_eq, Nat.mul_comm, ← Nat.two_pow_add_eq_or_of_lt y.isLt]

/-! ## The byte space -/

theorem byteAt_of {d : List Byte} {i : Nat} {b : Byte} (h : d[i]? = some b) : byteAt d i = b := by
  simp [byteAt, List.getD_eq_getElem?_getD, h]

/-- A read inside the buffer gives the byte that is there. -/
theorem getElem?_byteAt {d : List Byte} {i : Nat} (h : i < d.length) : d[i]? = some (byteAt d i) := by
  simp [byteAt, List.getD_eq_getElem?_getD, List.getElem?_eq_getElem h]

theorem memRead_one (d : List Byte) (a : Nat) : memRead d a 1 = byteAt d a := by
  apply BitVec.eq_of_toNat_eq
  have := (byteAt d a).isLt
  simp only [memRead, List.range_one, List.map_cons, List.map_nil, List.sum_cons, List.sum_nil,
    BitVec.toNat_ofNat]
  simp
  omega

/-- Big-endian: the first byte is the high one (20_memory.md R41). -/
theorem memRead_two (d : List Byte) (a : Nat) : memRead d a 2 = byteAt d a ++ byteAt d (a + 1) := by
  apply BitVec.eq_of_toNat_eq
  have h0 := (byteAt d a).isLt
  have h1 := (byteAt d (a + 1)).isLt
  have ht := append_toNat (byteAt d a) (byteAt d (a + 1))
  have hr : (memRead d a 2).toNat = (byteAt d a).toNat * 2 ^ 8 + (byteAt d (a + 1)).toNat := by
    simp only [memRead, show List.range 2 = [0, 1] from rfl, List.map_cons, List.map_nil, List.sum_cons,
      List.sum_nil, BitVec.toNat_ofNat, Nat.shiftLeft_eq, Nat.add_zero]
    norm_num
    omega
  rw [hr, ← ht]

theorem bytesOf_length (n : Nat) (v : BitVec (8 * n)) : (bytesOf n v).length = n := by simp [bytesOf]

theorem bytesOf_getElem? {n k : Nat} (v : BitVec (8 * n)) (h : k < n) :
    (bytesOf n v)[k]? = some (v.extractLsb' (8 * (n - 1 - k)) 8) := by
  simp [bytesOf, h]

/-! ## The pixel space -/

theorem PixelBuffer.pix_of {p : PixelBuffer} {i : Nat} {x : Pixel} (h : p.pixels[i]? = some x) :
    p.pix i = x := by
  simp [PixelBuffer.pix, List.getD_eq_getElem?_getD, h]

theorem PixelBuffer.getElem?_pix {p : PixelBuffer} {i : Nat} (h : i < p.pixels.length) :
    p.pixels[i]? = some (p.pix i) := by
  simp [PixelBuffer.pix, List.getD_eq_getElem?_getD, List.getElem?_eq_getElem h]

/-! ## Packed outputs -/

/-- Pieces of one length n, joined: byte k of piece i is byte n * i + k of the whole. -/
theorem flatMap_range_getElem? {α : Type} {n : Nat} (f : Nat → List α) (hf : ∀ i, (f i).length = n) :
    ∀ (count i k : Nat), i < count → k < n → ((List.range count).flatMap f)[n * i + k]? = (f i)[k]?
  | 0, _, _, hi, _ => absurd hi (Nat.not_lt_zero _)
  | count + 1, i, k, hi, hk => by
    have hlen : ((List.range count).flatMap f).length = n * count := by
      simp [List.length_flatMap, hf, Nat.mul_comm]
    rw [List.range_succ, List.flatMap_append]
    by_cases h : i < count
    · rw [List.getElem?_append_left, flatMap_range_getElem? f hf count i k h hk]
      rw [hlen]
      have : n * (i + 1) ≤ n * count := Nat.mul_le_mul_left n h
      rw [Nat.mul_succ] at this
      omega
    · have : i = count := by omega
      subst this
      rw [List.getElem?_append_right (by rw [hlen]; omega), hlen]
      simp

theorem packFields_length (n : Nat) (field : Pixel → BitVec (8 * n)) (p : PixelBuffer) :
    (packFields n field p).length = n * p.count := by
  simp [packFields, List.length_flatMap, bytesOf_length, Nat.mul_comm]

/-- Byte k of the field of pixel i. -/
theorem packFields_getElem? {n : Nat} (field : Pixel → BitVec (8 * n)) (p : PixelBuffer) {i k : Nat}
    (hi : i < p.count) (hk : k < n) :
    (packFields n field p)[n * i + k]? = some ((field (p.pix i)).extractLsb' (8 * (n - 1 - k)) 8) := by
  rw [packFields, flatMap_range_getElem? _ (fun i => bytesOf_length n _) _ _ _ hi hk, bytesOf_getElem? _ hk]

theorem packNibbles_length (field : Pixel → BitVec 4) (p : PixelBuffer) :
    (packNibbles field p).length = p.count / 2 := by simp [packNibbles]

theorem packNibbles_getElem? (field : Pixel → BitVec 4) (p : PixelBuffer) {j : Nat}
    (h : j < p.count / 2) :
    (packNibbles field p)[j]? = some (field (p.pix (2 * j)) ++ field (p.pix (2 * j + 1))) := by
  simp [packNibbles, h]

theorem packMask_length (p : PixelBuffer) : (packMask p).length = p.count / 8 := by simp [packMask]

theorem packMask_getElem? (p : PixelBuffer) {j : Nat} (h : j < p.count / 8) :
    (packMask p)[j]? = some (maskByte fun k => p.pix (8 * j + k)) := by simp [packMask, h]

/-- Bit 7 - k of a mask byte is the flag of its pixel k (30_encoding.md R68). -/
theorem maskByte_extract (px : Nat → Pixel) {k : Nat} (h : k < 8) :
    (maskByte px).extractLsb' (7 - k) 1 = maskFlag (px k).a := by
  have bits : ∀ m0 m1 m2 m3 m4 m5 m6 m7 : BitVec 1,
      let b : Byte := m0 ++ m1 ++ m2 ++ m3 ++ m4 ++ m5 ++ m6 ++ m7
      b.extractLsb' 7 1 = m0 ∧ b.extractLsb' 6 1 = m1 ∧ b.extractLsb' 5 1 = m2 ∧
      b.extractLsb' 4 1 = m3 ∧ b.extractLsb' 3 1 = m4 ∧ b.extractLsb' 2 1 = m5 ∧
      b.extractLsb' 1 1 = m6 ∧ b.extractLsb' 0 1 = m7 := by decide
  have := bits (maskFlag (px 0).a) (maskFlag (px 1).a) (maskFlag (px 2).a) (maskFlag (px 3).a)
    (maskFlag (px 4).a) (maskFlag (px 5).a) (maskFlag (px 6).a) (maskFlag (px 7).a)
  interval_cases k
  · exact this.1
  · exact this.2.1
  · exact this.2.2.1
  · exact this.2.2.2.1
  · exact this.2.2.2.2.1
  · exact this.2.2.2.2.2.1
  · exact this.2.2.2.2.2.2.1
  · exact this.2.2.2.2.2.2.2

/-- The nibble of pixel i in packed nibbles is its field (20_memory.md R43). -/
theorem nibbleField_packNibbles (field : Pixel → BitVec 4) (p : PixelBuffer) {i : Nat}
    (h : i / 2 < p.count / 2) : nibbleField (packNibbles field p) i = field (p.pix i) := by
  unfold nibbleField
  rw [byteAt_of (packNibbles_getElem? field p h)]
  split
  · rw [extract_append_high]; congr 2; omega
  · rw [extract_append_low]; congr 2; omega

/-- The bit of pixel i in a packed mask is its flag (20_memory.md R43). -/
theorem bitField_packMask (p : PixelBuffer) {i : Nat} (h : i / 8 < p.count / 8) :
    bitField (packMask p) i = maskFlag (p.pix i).a := by
  unfold bitField
  rw [byteAt_of (packMask_getElem? p h), maskByte_extract _ (Nat.mod_lt _ (by omega))]
  congr 3
  omega

/-! ## Fields that come back -/

/-- The fields of `RRRRRGGGGGBBBBBA` (30_encoding.md R69). -/
theorem rgba16_fields (r g b : BitVec 5) (a : BitVec 1) :
    ((r ++ g ++ b ++ a : Half).extractLsb' 11 5 = r) ∧ ((r ++ g ++ b ++ a : Half).extractLsb' 6 5 = g) ∧
    ((r ++ g ++ b ++ a : Half).extractLsb' 1 5 = b) ∧ ((r ++ g ++ b ++ a : Half).extractLsb' 0 1 = a) := by
  have h := (r ++ g ++ b ++ a : Half).isLt
  have hv : (r ++ g ++ b ++ a : Half).toNat = ((r.toNat * 32 + g.toNat) * 32 + b.toNat) * 2 + a.toNat := by
    have h1 := append_toNat (r ++ g ++ b) a
    have h2 := append_toNat (r ++ g) b
    have h3 := append_toNat r g
    simp only [h3, h2] at h1
    exact h1
  have := r.isLt; have := g.isLt; have := b.isLt; have := a.isLt
  refine ⟨?_, ?_, ?_, ?_⟩ <;> apply BitVec.eq_of_toNat_eq <;>
    simp only [BitVec.extractLsb'_toNat, hv, Nat.shiftRight_eq_div_pow] <;> omega

theorem expand16_rgba16Field (p : Pixel) : expand16 (rgba16Field p) =
    { r := scale 8 (quantize 5 p.r), g := scale 8 (quantize 5 p.g), b := scale 8 (quantize 5 p.b),
      a := expandFlag (opaqueFlag p.a) } := by
  obtain ⟨hr, hg, hb, ha⟩ := rgba16_fields (quantize 5 p.r) (quantize 5 p.g) (quantize 5 p.b) (opaqueFlag p.a)
  simp only [expand16, rgba16Field, hr, hg, hb, ha]

theorem rgba16Field_expand16 (v : Half) : rgba16Field (expand16 v) = v := by
  simp only [rgba16Field, expand16, quantize_scale.2.2, opaqueFlag_expandFlag]
  have h1 := append_toNat (v.extractLsb' 11 5 ++ v.extractLsb' 6 5 ++ v.extractLsb' 1 5) (v.extractLsb' 0 1)
  have h2 := append_toNat (v.extractLsb' 11 5 ++ v.extractLsb' 6 5) (v.extractLsb' 1 5)
  have h3 := append_toNat (v.extractLsb' 11 5) (v.extractLsb' 6 5)
  apply BitVec.eq_of_toNat_eq
  refine h1.trans ?_
  rw [h2, h3]
  have := v.isLt
  simp only [BitVec.extractLsb'_toNat, Nat.shiftRight_eq_div_pow]
  omega

theorem ia4Field_ia4Pixel (n : BitVec 4) : ia4Field (ia4Pixel n) = n := by revert n; decide

theorem ia8Field_ia8Pixel (b : Byte) : ia8Field (ia8Pixel b) = b := by revert b; decide

theorem ia16Field_ia16Pixel (v : Half) : ia16Field (ia16Pixel v) = v := by
  rw [ia16Field, ia16Pixel, avg_grey]
  exact append_extract (m := 8) (n := 8) v

theorem i4Field_i4Pixel (alpha : I4Alpha) (n : BitVec 4) : i4Field (i4Pixel alpha n) = n := by
  unfold i4Field i4Pixel
  rw [avg_grey]
  exact quantize_scale.2.1 n

end Sys2Proof.Machine
end

