-- ==== Sys2Proof/Laws/Codec.lean ====
section
/-! SUPPORT. The checks and bodies of ENCODE and DECODE, the palette lookups, and the interface: for each
shared function, once, everything it can answer. -/

namespace Sys2Proof.Machine

/-! ## The checks -/

theorem tooManyPixels_iff {cfg : Config} {n : Nat} :
    tooManyPixels cfg n = true ↔ ∃ limit, cfg.maxPixels = some limit ∧ limit < n := by
  unfold tooManyPixels
  cases cfg.maxPixels <;> simp

/-- The three ways in which dimensions fail (41_encode.md R110, 42_decode.md R140). -/
theorem badDimension_iff {cfg : Config} {fmt : Byte} {w h : Nat} : badDimension cfg fmt w h = true ↔
    (∃ limit, cfg.maxPixels = some limit ∧ limit < w * h) ∨ w * h % groupSize fmt ≠ 0 ∨
      (fmt = 0x00#8 ∧ w % 8 ≠ 0) := by
  simp [badDimension, tooManyPixels_iff, or_assoc]

/-- Dimensions that pass hold whole pixel groups. -/
theorem group_of_good {cfg : Config} {fmt : Byte} {w h : Nat} (hb : badDimension cfg fmt w h = false) :
    w * h % groupSize fmt = 0 := by
  by_contra hne
  rw [badDimension_iff.mpr (.inr (.inl hne))] at hb
  cases hb

/-! ## The bodies -/

/-- Everything ENCODE can answer. -/
theorem encodeBody_cases (cfg : Config) (fmt : Byte) (pack : PixelBuffer → List Byte) (p : PixelBuffer) :
    (badDimension cfg fmt p.width p.height = true ∧
      encodeBody cfg fmt pack p = .error (.dimension p.width p.height (groupSize fmt))) ∨
    (badDimension cfg fmt p.width p.height = false ∧ p.pixels.length ≠ p.count ∧
      encodeBody cfg fmt pack p = .error (.length p.count p.pixels.length)) ∨
    (badDimension cfg fmt p.width p.height = false ∧ p.pixels.length = p.count ∧
      encodeBody cfg fmt pack p = .ok (.bytes (pack p))) := by
  unfold encodeBody
  cases badDimension cfg fmt p.width p.height
  · by_cases hl : p.pixels.length = p.count <;> simp [hl]
  · simp

/-- Everything DECODE can answer, up to what unpacking answers. -/
theorem decodeBody_cases (cfg : Config) (fmt : Byte)
    (unpack : DecodeOperands → Except ErrorReport (List Pixel)) (o : DecodeOperands) :
    (badDimension cfg fmt o.width o.height = true ∧
      decodeBody cfg fmt unpack o = .error (.dimension o.width o.height (groupSize fmt))) ∨
    (badDimension cfg fmt o.width o.height = false ∧ o.data.length ≠ packedLen fmt o.width o.height ∧
      decodeBody cfg fmt unpack o = .error (.length (packedLen fmt o.width o.height) o.data.length)) ∨
    (badDimension cfg fmt o.width o.height = false ∧ o.data.length = packedLen fmt o.width o.height ∧
      ((∃ e, unpack o = .error e ∧ decodeBody cfg fmt unpack o = .error e) ∨
       (∃ px, unpack o = .ok px ∧ decodeBody cfg fmt unpack o =
         .ok (.picture ⟨o.width, o.height, px⟩ ⟨metadataName fmt, o.width, o.height⟩)))) := by
  unfold decodeBody
  cases badDimension cfg fmt o.width o.height
  · by_cases hl : o.data.length = packedLen fmt o.width o.height
    · cases unpack o <;> simp [hl]
    · simp [hl]
  · simp

/-! ## The palette -/

/-- Indices inside the palette: one expanded entry a pixel (42_decode.md R151). -/
theorem palLookups_ok {pal : List Half} {index : Nat → Nat} : ∀ {l : List Nat},
    (∀ i ∈ l, index i < pal.length) → ∃ px : List Pixel, palLookups pal index l = .ok px ∧
      px.length = l.length ∧
      ∀ k i : Nat, l[k]? = some i → ∃ e, pal[index i]? = some e ∧ px[k]? = some (expand16 e)
  | [], _ => ⟨[], rfl, rfl, by simp⟩
  | i :: rest, h => by
    obtain ⟨ps, h1, h2, h3⟩ := palLookups_ok (l := rest) fun j hj => h j (List.mem_cons_of_mem _ hj)
    have hi := h i List.mem_cons_self
    have hp : pal[index i]? = some pal[index i] := List.getElem?_eq_getElem hi
    refine ⟨expand16 pal[index i] :: ps, by simp [palLookups, palLookup, hp, h1], by simp [h2], ?_⟩
    rintro (_ | k) j hk
    · simp at hk
      subst hk
      exact ⟨_, hp, rfl⟩
    · exact h3 k j (by simpa using hk)

/-- The first index outside the palette is the one reported (42_decode.md R151). -/
theorem palLookups_error {pal : List Half} {index : Nat → Nat} {k : Nat} : ∀ {l : List Nat} {m : Nat},
    l[m]? = some k → pal.length ≤ index k →
    (∀ m' j, m' < m → l[m']? = some j → index j < pal.length) →
    palLookups pal index l = .error (.paletteIndex k (index k) pal.length)
  | [], _, h, _, _ => by simp at h
  | i :: rest, 0, h, hk, _ => by
    simp at h
    subst h
    simp [palLookups, palLookup, List.getElem?_eq_none_iff.mpr hk]
  | i :: rest, m + 1, h, hk, hlt => by
    have hi := hlt 0 i (Nat.succ_pos m) rfl
    have hp : pal[index i]? = some pal[index i] := List.getElem?_eq_getElem hi
    have := palLookups_error (l := rest) (m := m) (by simpa using h) hk fun m' j hm hj =>
      hlt (m' + 1) j (by omega) (by simpa using hj)
    simp [palLookups, palLookup, hp, this]

theorem palLookups_length {pal : List Half} {index : Nat → Nat} : ∀ {l : List Nat} {px : List Pixel},
    palLookups pal index l = .ok px → px.length = l.length
  | [], _, h => by cases h; rfl
  | i :: rest, _, h => by
    unfold palLookups at h
    split at h
    · cases h
    · split at h
      · cases h
      · rename_i ps hps
        cases h
        simp [palLookups_length hps]

/-! ## Names and nibbles -/

/-- fold on one character, as numbers (40_catalog.md R102). -/
theorem foldChar_toNat (c : Char) :
    (foldChar c).toNat = if 65 ≤ c.toNat ∧ c.toNat ≤ 90 then c.toNat + 32 else c.toNat := by
  unfold foldChar
  rw [show 'A'.toNat = 65 from rfl, show 'Z'.toNat = 90 from rfl]
  split
  · rw [Char.toNat_ofNat, if_pos (by left; omega)]
  · rfl

/-- The nibbles of byte j are the fields of pixels 2j and 2j + 1 (20_memory.md R43). -/
theorem nibbleField_pair (d : List Byte) (j : Nat) :
    nibbleField d (2 * j) = (byteAt d j).extractLsb' 4 4 ∧
    nibbleField d (2 * j + 1) = (byteAt d j).extractLsb' 0 4 := by
  simp [nibbleField, show (2 * j + 1) % 2 = 1 by omega, show (2 * j + 1) / 2 = j by omega]

/-! ## The interface -/

/-- Everything that presenting a request can answer (60_exceptions.md R171). -/
theorem present_cases (s : State) (r : Request) :
    (∃ f, r.missing = some f ∧ s.present r = .error (.missingOperand f)) ∨
    (r.missing = none ∧ s.present r = .ok { s with pending := s.pending ++ [⟨r, []⟩] }) := by
  unfold State.present
  cases r.missing <;> simp

end Sys2Proof.Machine
end

