-- ==== Sys2Proof/Laws/State.lean ====
section
/-! SUPPORT. One lemma per field per update of State, so that no proof unfolds a record update. -/

namespace Sys2Proof.Machine

variable (s : State) (resp : Response) (v : Result) (e : ErrorReport)

@[simp] theorem State.answer_config : (s.answer resp).config = s.config := rfl
@[simp] theorem State.answer_pending : (s.answer resp).pending = s.pending.eraseIdx s.turn := rfl
@[simp] theorem State.answer_order : (s.answer resp).order = s.order.tail := rfl
@[simp] theorem State.answer_response : (s.answer resp).response = some resp := rfl
@[simp] theorem State.answer_draws : (s.answer resp).draws = s.draws := rfl

@[simp] theorem State.conclude_ok : s.conclude (.ok v) = s.answer (.ok v) := rfl
@[simp] theorem State.conclude_error : s.conclude (.error e) = s.answer (.error e) := rfl

@[simp] theorem State.draw_config : s.draw.config = s.config := rfl
@[simp] theorem State.draw_pending : s.draw.pending = s.pending.eraseIdx s.turn := rfl
@[simp] theorem State.draw_order : s.draw.order = s.order.tail := rfl
@[simp] theorem State.draw_response : s.draw.response = some (Config.freeResponse s.draws) := rfl
@[simp] theorem State.draw_draws : s.draw.draws = s.draws + 1 := rfl

@[simp] theorem State.idle_config : s.idle.config = s.config := rfl
@[simp] theorem State.idle_pending : s.idle.pending = s.pending := rfl
@[simp] theorem State.idle_order : s.idle.order = s.order := rfl
@[simp] theorem State.idle_response : s.idle.response = none := rfl
@[simp] theorem State.idle_draws : s.idle.draws = s.draws := rfl

@[simp] theorem State.applyReset_config : s.applyReset.config = s.config := rfl
@[simp] theorem State.applyReset_pending : s.applyReset.pending = [] := rfl
@[simp] theorem State.applyReset_order : s.applyReset.order = [] := rfl
@[simp] theorem State.applyReset_response : s.applyReset.response = none := rfl
@[simp] theorem State.applyReset_draws : s.applyReset.draws = s.draws := rfl

@[simp] theorem State.changeInput_config (k : Nat) (b : InputBuffer) :
    (s.changeInput k b).config = s.config := rfl
@[simp] theorem State.changeInput_pending (k : Nat) (b : InputBuffer) :
    (s.changeInput k b).pending = s.pending.modify k fun t => { t with changed := b :: t.changed } := rfl
@[simp] theorem State.changeInput_order (k : Nat) (b : InputBuffer) :
    (s.changeInput k b).order = s.order := rfl
@[simp] theorem State.changeInput_response (k : Nat) (b : InputBuffer) :
    (s.changeInput k b).response = s.response := rfl
@[simp] theorem State.changeInput_draws (k : Nat) (b : InputBuffer) :
    (s.changeInput k b).draws = s.draws := rfl

@[simp] theorem State.withCommand_config (cmd : Half) : (s.withCommand cmd).config = s.config := by
  unfold State.withCommand; split <;> rfl
@[simp] theorem State.withCommand_order (cmd : Half) : (s.withCommand cmd).order = s.order := by
  unfold State.withCommand; split <;> rfl
@[simp] theorem State.withCommand_response (cmd : Half) : (s.withCommand cmd).response = s.response := by
  unfold State.withCommand; split <;> rfl
@[simp] theorem State.withCommand_draws (cmd : Half) : (s.withCommand cmd).draws = s.draws := by
  unfold State.withCommand; split <;> rfl

end Sys2Proof.Machine
end

