-- ==== Sys2Proof/Laws/Ops.lean ====
section
/-! SUPPORT. What the shared operations can do: the transaction being answered, `serve`, and from it what
`exec` and `step` can do. -/

namespace Sys2Proof.Machine

/-! ## The transaction being answered -/

/-- The turn names a transaction whenever one is in progress. -/
theorem State.turn_lt {s : State} (h : s.pending ≠ []) : s.turn < s.pending.length := by
  have pos : 0 < s.pending.length := List.length_pos_of_ne_nil h
  unfold State.turn
  split
  · split <;> omega
  · exact pos

theorem State.current_eq_none_iff {s : State} : s.current = none ↔ s.pending = [] := by
  constructor
  · intro h
    by_contra hne
    have hlt := State.turn_lt hne
    rw [State.current, List.getElem?_eq_none_iff] at h
    omega
  · intro h
    simp [State.current, h]

theorem State.current_mem {s : State} {t : Transaction} (h : s.current = some t) : t ∈ s.pending :=
  List.mem_of_getElem? h

/-- An empty `order` answers the oldest transaction. -/
theorem State.turn_nil {s : State} (h : s.order = []) : s.turn = 0 := by simp [State.turn, h]

/-- A lone transaction is the one being answered, whatever `order` says. -/
theorem State.current_singleton {s : State} {t : Transaction} (h : s.pending = [t]) :
    s.current = some t := by
  have ht : s.turn = 0 := by
    have := State.turn_lt (s := s) (by simp [h])
    simp [h] at this
    exact this
  simp [State.current, ht, h]

/-! ## Disturbance -/

/-- A transaction is undisturbed exactly where the host changed nothing of it. -/
@[simp] theorem Transaction.disturbed_eq_false_iff {t : Transaction} :
    t.disturbed = false ↔ t.changed = [] := by
  simp [Transaction.disturbed]

@[simp] theorem Transaction.disturbed_eq_true_iff {t : Transaction} :
    t.disturbed = true ↔ t.changed ≠ [] := by
  simp [Transaction.disturbed]

theorem State.serves_of_unchanged {s : State} {t : Transaction} (h : s.current = some t)
    (hc : t.changed = []) : s.Serves t.request :=
  ⟨t, h, rfl, hc⟩

@[simp] theorem State.alone_current (cfg : Config) (r : Request) :
    (State.alone cfg r).current = some { request := r, changed := [] } := rfl

/-- A transaction alone is served. -/
theorem State.alone_serves (cfg : Config) (r : Request) : (State.alone cfg r).Serves r :=
  State.serves_of_unchanged (State.alone_current cfg r) rfl

/-! ## serve -/

section
variable {α : Type} {operands : Request → Except OperandField α}
  {body : α → Except ErrorReport Result} {s s' : State}

/-- Everything `serve` can answer as a next state. -/
theorem serve_next_cases (h : serve operands body s = .next s') :
    ∃ t v, s.current = some t ∧ operands t.request = .ok v ∧
      ((t.changed ≠ [] ∧ s' = s.draw) ∨
       (t.changed = [] ∧ s' = s.conclude (body v))) := by
  unfold serve at h
  split at h
  · cases h
  · rename_i t ht
    split at h
    · cases h
    · rename_i v hv
      refine ⟨t, v, ht, hv, ?_⟩
      split at h
      · rename_i hd; cases h; exact .inl ⟨by simpa using hd, rfl⟩
      · rename_i hd; cases h; exact .inr ⟨by simpa using hd, rfl⟩

/-- An undisturbed request with its operands is answered by the body. -/
theorem serve_of_serves {r : Request} {v : α} (h : s.Serves r) (hv : operands r = .ok v) :
    serve operands body s = .next (s.conclude (body v)) := by
  obtain ⟨t, ht, rfl, hd⟩ := h
  simp [serve, ht, hv, hd]

/-- A disturbed request with its operands draws a free response. -/
theorem serve_of_disturbed {t : Transaction} {v : α} (ht : s.current = some t)
    (hv : operands t.request = .ok v) (hd : t.changed ≠ []) :
    serve operands body s = .next s.draw := by
  simp [serve, ht, hv, hd]

/-- A request without its operands is refused. -/
theorem serve_of_missing {t : Transaction} {f : OperandField} (ht : s.current = some t)
    (hf : operands t.request = .error f) :
    serve operands body s = .refused (.missingOperand f) := by
  simp [serve, ht, hf]

/-- Where `serve` has a transaction with its operands, it answers a next state. -/
theorem serve_completes {t : Transaction} {v : α} (ht : s.current = some t)
    (hv : operands t.request = .ok v) : ∃ resp, (∃ d, serve operands body s =
      .next { s.answer resp with draws := d }) := by
  cases hd : t.disturbed
  · cases hb : body v with
    | ok x => exact ⟨.ok x, s.draws, by simp [serve, ht, hv, hd, hb]; rfl⟩
    | error e => exact ⟨.error e, s.draws, by simp [serve, ht, hv, hd, hb]; rfl⟩
  · exact ⟨Config.freeResponse s.draws, s.draws + 1, by simp [serve, ht, hv, hd]; rfl⟩

end

/-! ## Operands -/

theorem encodeOperand_of {r : Request} {p : PixelBuffer} (h : r.pixels = some p) :
    encodeOperand r = .ok p := by simp [encodeOperand, h, requireField]

theorem decodeOperands_of {r : Request} {d : List Byte} {w h : Nat} (hd : r.data = some d)
    (hw : r.width = some w) (hh : r.height = some h) :
    decodeOperands r = .ok { data := d, width := w, height := h, palette := r.palette } := by
  simp [decodeOperands, hd, hw, hh, requireField]

theorem nameOperand_of {r : Request} {n : Text} (h : r.name = some n) : nameOperand r = .ok n := by
  simp [nameOperand, h, requireField]

theorem codeBitsOperand_of {r : Request} {c z : Byte} (hc : r.colorBits = some c)
    (hz : r.sizeBits = some z) : codeBitsOperand r = .ok (c, z) := by
  simp [codeBitsOperand, hc, hz, requireField]

/-! ## exec and step -/

/-- The three shapes of an answer, as every instruction gives them: an answer, or a draw. -/
def Concludes (s s' : State) : Prop := s.pending ≠ [] ∧ ((∃ resp, s' = s.answer resp) ∨ s' = s.draw)

theorem serve_concludes {α : Type} {operands : Request → Except OperandField α}
    {body : α → Except ErrorReport Result} {s s' : State}
    (h : serve operands body s = .next s') : Concludes s s' := by
  obtain ⟨t, v, ht, -, ⟨-, rfl⟩ | ⟨-, rfl⟩⟩ := serve_next_cases h
  · exact ⟨List.ne_nil_of_mem (State.current_mem ht), .inr rfl⟩
  · refine ⟨List.ne_nil_of_mem (State.current_mem ht), .inl ?_⟩
    cases body v with
    | ok x => exact ⟨.ok x, rfl⟩
    | error e => exact ⟨.error e, rfl⟩

/-- Everything an instruction can do: answer the transaction, or draw for it. -/
theorem exec_concludes {i : Instr} {s s' : State} (h : exec i s = .next s') : Concludes s s' := by
  cases i with
  | bpp _ => unfold exec execBpp at h; exact serve_concludes h
  | n2c _ => unfold exec execN2c at h; exact serve_concludes h
  | c2n _ => unfold exec execC2n at h; exact serve_concludes h
  | _ => exact serve_concludes h

/-- Everything a step can do: idle, or answer or draw for one transaction. -/
theorem step_cases {s s' : State} (h : step s = .next s') :
    (s.pending = [] ∧ s' = s.idle) ∨ Concludes s s' := by
  unfold step State.fetch at h
  cases hc : s.current with
  | none =>
    simp only [hc, Option.map_none] at h
    cases h
    exact .inl ⟨State.current_eq_none_iff.mp hc, rfl⟩
  | some t =>
    simp only [hc, Option.map_some] at h
    right
    cases hd : decode t.request.cmd with
    | instr i => exact exec_concludes (by simpa [hd] using h)
    | illegalOp op => exact serve_concludes (by simpa [hd, serveIllegalOp] using h)
    | reservedEncodeFormat f => exact serve_concludes (by simpa [hd, serveEncodeUnsupported] using h)
    | reservedDecodeFormat f => exact serve_concludes (by simpa [hd, serveDecodeUnsupported] using h)

end Sys2Proof.Machine
end

