-- ==== Sys2Proof/Laws/Exec.lean ====
section
/-! SUPPORT. What an instruction and a step do, said once: every instruction is a `serve` of a pure function
of the configuration and the request, so its outcome depends on nothing else. -/

namespace Sys2Proof.Machine

/-- The outcome that a missing field, the disturbance of the transaction and a computed result leave
open no more of. -/
def settle (missing : Option OperandField) (res : Except ErrorReport Result)
    (t : Transaction) (s : State) : Host.Outcome State Fault Refusal :=
  match missing with
  | some field => .refused (.missingOperand field)
  | none => if t.disturbed then .next s.draw else .next (s.conclude res)

/-- `f` settles the request `r` under the configuration `cfg` with the result `res`. -/
def Settles (cfg : Config) (r : Request) (missing : Option OperandField)
    (res : Except ErrorReport Result) (f : State → Host.Outcome State Fault Refusal) : Prop :=
  ∀ s t, s.current = some t → t.request = r → s.config = cfg → f s = settle missing res t s

theorem serve_settles {α : Type} (cfg : Config) (r : Request) (operands : Request → Except OperandField α)
    (body : Config → α → Except ErrorReport Result) :
    ∃ res, Settles cfg r (missingField (operands r)) res
      (fun s => serve operands (body s.config) s) := by
  cases h : operands r with
  | error field =>
    refine ⟨.error default, ?_⟩
    rintro s t ht rfl rfl
    simp [serve, ht, h, settle, missingField]
  | ok v =>
    refine ⟨body cfg v, ?_⟩
    rintro s t ht rfl rfl
    simp [serve, ht, h, settle, missingField]

/-- Every instruction settles every request, by the operands of its operation. -/
theorem exec_settles (i : Instr) (cfg : Config) (r : Request) :
    ∃ res, Settles cfg r (r.lacks i.operation) res (exec i) := by
  cases i with
  | encOneBpp => exact serve_settles cfg r encodeOperand fun c => encodeBody c 0x00#8 packMask
  | encRgba16 => exact serve_settles cfg r encodeOperand fun c => encodeBody c 0x10#8 (packFields 2 rgba16Field)
  | encRgba32 => exact serve_settles cfg r encodeOperand fun c => encodeBody c 0x18#8 (packFields 4 rgba32Field)
  | encIa4 => exact serve_settles cfg r encodeOperand fun c => encodeBody c 0x60#8 (packNibbles ia4Field)
  | encIa8 => exact serve_settles cfg r encodeOperand fun c => encodeBody c 0x68#8 (packFields 1 ia8Field)
  | encIa16 => exact serve_settles cfg r encodeOperand fun c => encodeBody c 0x70#8 (packFields 2 ia16Field)
  | encI4 => exact serve_settles cfg r encodeOperand fun c => encodeBody c 0x80#8 (packNibbles i4Field)
  | encI4Alt => exact serve_settles cfg r encodeOperand fun c => encodeBody c 0x90#8 (packNibbles i4Field)
  | encI8 => exact serve_settles cfg r encodeOperand fun c => encodeBody c 0x88#8 (packFields 1 Pixel.avg)
  | encCi4 => exact serve_settles cfg r encodeOperand fun _ _ => .error (.unsupportedFormat 0x01#8 0x40#8)
  | encCi8 => exact serve_settles cfg r encodeOperand fun _ _ => .error (.unsupportedFormat 0x01#8 0x48#8)
  | decOneBpp =>
    exact serve_settles cfg r decodeOperands fun c =>
      decodeBody c 0x00#8 (unpackEach fun d i => maskPixel (bitField d i))
  | decRgba16 =>
    exact serve_settles cfg r decodeOperands fun c =>
      decodeBody c 0x10#8 (unpackEach fun d i => expand16 (memRead d (2 * i) 2))
  | decRgba32 =>
    exact serve_settles cfg r decodeOperands fun c =>
      decodeBody c 0x18#8 (unpackEach fun d i => rgba32Pixel d (4 * i))
  | decIa4 =>
    exact serve_settles cfg r decodeOperands fun c =>
      decodeBody c 0x60#8 (unpackEach fun d i => ia4Pixel (nibbleField d i))
  | decIa8 =>
    exact serve_settles cfg r decodeOperands fun c =>
      decodeBody c 0x68#8 (unpackEach fun d i => ia8Pixel (memRead d i 1))
  | decIa16 =>
    exact serve_settles cfg r decodeOperands fun c =>
      decodeBody c 0x70#8 (unpackEach fun d i => ia16Pixel (memRead d (2 * i) 2))
  | decI4 =>
    exact serve_settles cfg r decodeOperands fun c =>
      decodeBody c 0x80#8 (unpackEach fun d i => i4Pixel c.i4DecodeAlpha (nibbleField d i))
  | decI4Alt =>
    exact serve_settles cfg r decodeOperands fun c =>
      decodeBody c 0x90#8 (unpackEach fun d i => i4Pixel c.i4DecodeAlpha (nibbleField d i))
  | decI8 =>
    exact serve_settles cfg r decodeOperands fun c =>
      decodeBody c 0x88#8 (unpackEach fun d i => i8Pixel (memRead d i 1))
  | decCi4 =>
    exact serve_settles cfg r decodeOperands fun c =>
      decodeBody c 0x40#8 (unpackIndexed 0x40#8 fun d i => (nibbleField d i).toNat)
  | decCi8 =>
    exact serve_settles cfg r decodeOperands fun c =>
      decodeBody c 0x48#8 (unpackIndexed 0x48#8 fun d i => (memRead d i 1).toNat)
  | bpp fmt => exact serve_settles cfg r noOperand fun _ _ => .ok (.bits (bpp fmt))
  | n2c _ => exact serve_settles cfg r nameOperand fun _ name => .ok (.code (nameToCode name))
  | c2n _ => exact serve_settles cfg r codeBitsOperand fun _ c => .ok (.label (codeToName c.1 c.2))

/-- A step with a transaction in progress, by what its command decodes to. -/
theorem step_of_current {s : State} {t : Transaction} (h : s.current = some t) :
    step s = match decode t.request.cmd with
      | .instr i => exec i s
      | .illegalOp op => serveIllegalOp op s
      | .reservedEncodeFormat fmt => serveEncodeUnsupported fmt s
      | .reservedDecodeFormat fmt => serveDecodeUnsupported fmt s := by
  simp only [step, State.fetch, h, Option.map_some]
  cases decode t.request.cmd <;> rfl

/-- What a decoded instruction says of the selector it came from. -/
theorem decodeFields_operation {op fmt : Byte} {i : Instr} (h : decodeFields op fmt = .instr i) :
    Operation.ofSelector op = some i.operation := by
  have enc : ∀ f, (encodeInstrs.lookup f).all (fun j => j.operation = .encode) = true := by decide
  have dec : ∀ f, (decodeInstrs.lookup f).all (fun j => j.operation = .decode) = true := by decide
  unfold decodeFields at h
  cases ho : Operation.ofSelector op with
  | none => simp [ho] at h
  | some operation =>
    cases operation with
    | encode =>
      have := enc fmt
      cases hl : encodeInstrs.lookup fmt with
      | none => simp [ho, hl] at h
      | some j => simp only [ho, hl] at h; cases h; simpa [hl, eq_comm] using this
    | decode =>
      have := dec fmt
      cases hl : decodeInstrs.lookup fmt with
      | none => simp [ho, hl] at h
      | some j => simp only [ho, hl] at h; cases h; simpa [hl, eq_comm] using this
    | bitsPerPixel => simp only [ho] at h; cases h; rfl
    | nameToCode => simp only [ho] at h; cases h; rfl
    | codeToName => simp only [ho] at h; cases h; rfl

/-- Everything a step does with a transaction, as `settle`: the missing field is that of the request, and
the result depends on the configuration and the request alone. -/
theorem step_settles (cfg : Config) (r : Request) :
    ∃ res, Settles cfg r r.missing res step := by
  have lift : ∀ {missing res f}, (∀ s t, s.current = some t → t.request = r → step s = f s) →
      Settles cfg r missing res f → Settles cfg r missing res step :=
    fun hf h s t ht hr hc => (hf s t ht hr).trans (h s t ht hr hc)
  cases hd : decode r.cmd with
  | instr i =>
    obtain ⟨res, hres⟩ := exec_settles i cfg r
    have hop : Operation.ofSelector r.op = some i.operation := decodeFields_operation hd
    refine ⟨res, lift (f := exec i) ?_ (by simpa only [Request.missing, hop] using hres)⟩
    rintro s t ht rfl
    rw [step_of_current ht, hd]
  | illegalOp op =>
    obtain ⟨res, hres⟩ := serve_settles cfg r noOperand fun _ _ => .error (.illegalOp op)
    have hop : Operation.ofSelector r.op = none := by
      change decodeFields r.op r.fmt = _ at hd
      unfold decodeFields at hd
      split at hd <;> first | assumption | (split at hd <;> cases hd) | cases hd
    refine ⟨res, lift (f := serveIllegalOp op) ?_ ?_⟩
    · rintro s t ht rfl
      rw [step_of_current ht, hd]
    · simp only [Request.missing, hop]; exact hres
  | reservedEncodeFormat fmt =>
    obtain ⟨res, hres⟩ := serve_settles cfg r encodeOperand fun _ _ =>
      .error (.unsupportedFormat 0x01#8 fmt)
    have hop : Operation.ofSelector r.op = some .encode := by
      change decodeFields r.op r.fmt = _ at hd
      unfold decodeFields at hd
      split at hd <;> first | assumption | (split at hd <;> cases hd) | cases hd
    refine ⟨res, lift (f := serveEncodeUnsupported fmt) ?_ ?_⟩
    · rintro s t ht rfl
      rw [step_of_current ht, hd]
    · simp only [Request.missing, hop]; exact hres
  | reservedDecodeFormat fmt =>
    obtain ⟨res, hres⟩ := serve_settles cfg r decodeOperands fun _ _ =>
      .error (.unsupportedFormat 0x02#8 fmt)
    have hop : Operation.ofSelector r.op = some .decode := by
      change decodeFields r.op r.fmt = _ at hd
      unfold decodeFields at hd
      split at hd <;> first | assumption | (split at hd <;> cases hd) | cases hd
    refine ⟨res, lift (f := serveDecodeUnsupported fmt) ?_ ?_⟩
    · rintro s t ht rfl
      rw [step_of_current ht, hd]
    · simp only [Request.missing, hop]; exact hres

/-- A run that takes a step goes on from its next state. -/
theorem run_succ {n : Nat} {s s' : State} (h : step s = .next s') :
    Sys2Proof.core.run (n + 1) s = Sys2Proof.core.run n s' := by
  have hc : Sys2Proof.core.step s = .next s' := h
  simp only [Host.Core.run, hc]

/-- A request lacks no field exactly where it is well formed (60_exceptions.md R171). -/
theorem Request.missing_eq_none_iff (r : Request) : r.missing = none ↔ r.wellFormed = true := by
  unfold Request.missing Request.wellFormed
  cases Operation.ofSelector r.op with
  | none => simp
  | some operation =>
    cases operation
    · cases hp : r.pixels <;> simp [Request.lacks, encodeOperand, requireField, missingField, hp]
    · cases hd : r.data <;> cases hw : r.width <;> cases hh : r.height <;>
        simp [Request.lacks, decodeOperands, requireField, missingField, hd, hw, hh]
    · simp [Request.lacks]
    · cases hn : r.name <;> simp [Request.lacks, nameOperand, requireField, missingField, hn]
    · cases hc : r.colorBits <;> cases hs : r.sizeBits <;>
        simp [Request.lacks, codeBitsOperand, requireField, missingField, hc, hs]

end Sys2Proof.Machine
end

