-- ==== Sys2Proof/Laws/PerInstr.lean ====
section
/-! SUPPORT. One statement per instruction: its command word is the word of its row in the spec's opcode
table. -/

namespace Sys2Proof.Laws.TableRow

/-- The `match` and `mask` of an instruction's row in spec/opcode_table.json (30_encoding.md R64, R66). -/
def row : Instr → Half × Half
  | .encOneBpp => (0x0100#16, 0xFFFF#16)
  | .encRgba16 => (0x0110#16, 0xFFFF#16)
  | .encRgba32 => (0x0118#16, 0xFFFF#16)
  | .encIa4 => (0x0160#16, 0xFFFF#16)
  | .encIa8 => (0x0168#16, 0xFFFF#16)
  | .encIa16 => (0x0170#16, 0xFFFF#16)
  | .encI4 => (0x0180#16, 0xFFFF#16)
  | .encI4Alt => (0x0190#16, 0xFFFF#16)
  | .encI8 => (0x0188#16, 0xFFFF#16)
  | .encCi4 => (0x0140#16, 0xFFFF#16)
  | .encCi8 => (0x0148#16, 0xFFFF#16)
  | .decOneBpp => (0x0200#16, 0xFFFF#16)
  | .decRgba16 => (0x0210#16, 0xFFFF#16)
  | .decRgba32 => (0x0218#16, 0xFFFF#16)
  | .decIa4 => (0x0260#16, 0xFFFF#16)
  | .decIa8 => (0x0268#16, 0xFFFF#16)
  | .decIa16 => (0x0270#16, 0xFFFF#16)
  | .decI4 => (0x0280#16, 0xFFFF#16)
  | .decI4Alt => (0x0290#16, 0xFFFF#16)
  | .decI8 => (0x0288#16, 0xFFFF#16)
  | .decCi4 => (0x0240#16, 0xFFFF#16)
  | .decCi8 => (0x0248#16, 0xFFFF#16)
  | .bpp _ => (0x0300#16, 0xFF00#16)
  | .n2c _ => (0x0400#16, 0xFF00#16)
  | .c2n _ => (0x0500#16, 0xFF00#16)

/-- The command word of the instruction has the row's fixed bits. -/
def Statement (i : Instr) : Prop := encode i &&& (row i).2 = (row i).1

theorem encOneBpp : Statement .encOneBpp := by unfold Statement; decide
theorem encRgba16 : Statement .encRgba16 := by unfold Statement; decide
theorem encRgba32 : Statement .encRgba32 := by unfold Statement; decide
theorem encIa4 : Statement .encIa4 := by unfold Statement; decide
theorem encIa8 : Statement .encIa8 := by unfold Statement; decide
theorem encIa16 : Statement .encIa16 := by unfold Statement; decide
theorem encI4 : Statement .encI4 := by unfold Statement; decide
theorem encI4Alt : Statement .encI4Alt := by unfold Statement; decide
theorem encI8 : Statement .encI8 := by unfold Statement; decide
theorem encCi4 : Statement .encCi4 := by unfold Statement; decide
theorem encCi8 : Statement .encCi8 := by unfold Statement; decide
theorem decOneBpp : Statement .decOneBpp := by unfold Statement; decide
theorem decRgba16 : Statement .decRgba16 := by unfold Statement; decide
theorem decRgba32 : Statement .decRgba32 := by unfold Statement; decide
theorem decIa4 : Statement .decIa4 := by unfold Statement; decide
theorem decIa8 : Statement .decIa8 := by unfold Statement; decide
theorem decIa16 : Statement .decIa16 := by unfold Statement; decide
theorem decI4 : Statement .decI4 := by unfold Statement; decide
theorem decI4Alt : Statement .decI4Alt := by unfold Statement; decide
theorem decI8 : Statement .decI8 := by unfold Statement; decide
theorem decCi4 : Statement .decCi4 := by unfold Statement; decide
theorem decCi8 : Statement .decCi8 := by unfold Statement; decide
theorem bpp : ∀ b : Byte, Statement (.bpp b) := by unfold Statement; decide
theorem n2c : ∀ b : Byte, Statement (.n2c b) := by unfold Statement; decide
theorem c2n : ∀ b : Byte, Statement (.c2n b) := by unfold Statement; decide

end Sys2Proof.Laws.TableRow
end

