-- ==== Sys2Proof/Tests/Slice0.lean ====
section
/-! SUPPORT. Tests with results from the spec's own vectors (95_test_vectors.md, cited by number) and rules,
and witnesses: for each statement with hypotheses, a concrete state and operands that meet them. -/

namespace Sys2Proof.Tests

open Sys2Proof.Machine Sys2Proof.Claims

def px (r g b a : Nat) : Pixel := ⟨.ofNat 8 r, .ofNat 8 g, .ofNat 8 b, .ofNat 8 a⟩

def bytes (l : List Nat) : List Byte := l.map (BitVec.ofNat 8)

def halves (l : List Nat) : List Half := l.map (BitVec.ofNat 16)

/-- Pixels that differ in alpha alone. -/
def alphas (l : List Nat) : List Pixel := l.map (px 9 8 7)

/-- The response to ENCODE with a command word. -/
def enc (cmd w h : Nat) (ps : List Pixel) (cfg : Config := Config.spec) : Option Response :=
  responseTo cfg { Request.bare (.ofNat 16 cmd) with pixels := some ⟨w, h, ps⟩ }

/-- The request of DECODE with a command word. -/
def decRequest (cmd w h : Nat) (d : List Nat) (pal : Option (List Nat) := none) : Request :=
  { Request.bare (.ofNat 16 cmd) with
    data := some (bytes d), width := some w, height := some h, palette := pal.map halves }

/-- The response to DECODE with a command word. -/
def dec (cmd w h : Nat) (d : List Nat) (pal : Option (List Nat) := none)
    (cfg : Config := Config.spec) : Option Response :=
  responseTo cfg (decRequest cmd w h d pal)

def n2c (cmd : Nat) (name : Text) : Option Response :=
  responseTo Config.spec { Request.bare (.ofNat 16 cmd) with name := some name }

def c2n (cmd c z : Nat) : Option Response :=
  responseTo Config.spec
    { Request.bare (.ofNat 16 cmd) with colorBits := some (.ofNat 8 c), sizeBits := some (.ofNat 8 z) }

def packed (l : List Nat) : Option Response := some (.ok (.bytes (bytes l)))

def picture (w h : Nat) (name : Text) (ps : List Pixel) : Option Response :=
  some (.ok (.picture ⟨w, h, ps⟩ ⟨name, w, h⟩))

def failure (e : ErrorReport) : Option Response := some (.error e)

def code (n : Nat) : Option Response := some (.ok (.code (.ofNat 8 n)))

/-! ## WellFormed -/

theorem test_wellFormed_instr : Instr.wellFormed (.bpp 0x11#8) = true := by decide

/-- A PixelBuffer with one pixel too few (10_state.md R27). -/
theorem test_illFormed_pixelBuffer : PixelBuffer.wellFormed ⟨2, 1, [px 0 0 0 0]⟩ = false ∧
    PixelBuffer.wellFormed ⟨1, 1, [px 0 0 0 0]⟩ = true := by decide

/-- Each field that 60_exceptions.md R171 asks for, left out. -/
theorem test_illFormed_request :
    (Request.bare 0x0110#16).wellFormed = false ∧
    ({ Request.bare 0x0210#16 with width := some 1, height := some 1 } : Request).wellFormed = false ∧
    ({ Request.bare 0x0210#16 with data := some [], height := some 1 } : Request).wellFormed = false ∧
    ({ Request.bare 0x0210#16 with data := some [], width := some 1 } : Request).wellFormed = false ∧
    (Request.bare 0x0400#16).wellFormed = false ∧
    ({ Request.bare 0x0500#16 with sizeBits := some 0#8 } : Request).wellFormed = false ∧
    ({ Request.bare 0x0500#16 with colorBits := some 0#8 } : Request).wellFormed = false := by decide

/-- No palette, no operand for BPP, no operand for a reserved op: still requests (R171). -/
theorem test_wellFormed_request : (decRequest 0x0240 2 1 [1]).wellFormed = true ∧
    (Request.bare 0x0390#16).wellFormed = true ∧ (Request.bare 0x0610#16).wellFormed = true := by decide

/-! ## Decoding: the words of 30_encoding.md R64, bit by bit -/

theorem test_decode_encOneBpp : decode 0b0000000100000000#16 = .instr .encOneBpp := by decide
theorem test_decode_encRgba16 : decode 0b0000000100010000#16 = .instr .encRgba16 := by decide
theorem test_decode_encRgba32 : decode 0b0000000100011000#16 = .instr .encRgba32 := by decide
theorem test_decode_encIa4 : decode 0b0000000101100000#16 = .instr .encIa4 := by decide
theorem test_decode_encIa8 : decode 0b0000000101101000#16 = .instr .encIa8 := by decide
theorem test_decode_encIa16 : decode 0b0000000101110000#16 = .instr .encIa16 := by decide
theorem test_decode_encI4 : decode 0b0000000110000000#16 = .instr .encI4 := by decide
theorem test_decode_encI4Alt : decode 0b0000000110010000#16 = .instr .encI4Alt := by decide
theorem test_decode_encI8 : decode 0b0000000110001000#16 = .instr .encI8 := by decide
theorem test_decode_encCi4 : decode 0b0000000101000000#16 = .instr .encCi4 := by decide
theorem test_decode_encCi8 : decode 0b0000000101001000#16 = .instr .encCi8 := by decide
theorem test_decode_decOneBpp : decode 0b0000001000000000#16 = .instr .decOneBpp := by decide
theorem test_decode_decRgba16 : decode 0b0000001000010000#16 = .instr .decRgba16 := by decide
theorem test_decode_decRgba32 : decode 0b0000001000011000#16 = .instr .decRgba32 := by decide
theorem test_decode_decIa4 : decode 0b0000001001100000#16 = .instr .decIa4 := by decide
theorem test_decode_decIa8 : decode 0b0000001001101000#16 = .instr .decIa8 := by decide
theorem test_decode_decIa16 : decode 0b0000001001110000#16 = .instr .decIa16 := by decide
theorem test_decode_decI4 : decode 0b0000001010000000#16 = .instr .decI4 := by decide
theorem test_decode_decI4Alt : decode 0b0000001010010000#16 = .instr .decI4Alt := by decide
theorem test_decode_decI8 : decode 0b0000001010001000#16 = .instr .decI8 := by decide
theorem test_decode_decCi4 : decode 0b0000001001000000#16 = .instr .decCi4 := by decide
theorem test_decode_decCi8 : decode 0b0000001001001000#16 = .instr .decCi8 := by decide
theorem test_decode_bpp : decode 0b0000001101001000#16 = .instr (.bpp 0b01001000#8) := by decide
theorem test_decode_n2c : decode 0b0000010010101011#16 = .instr (.n2c 0b10101011#8) := by decide
theorem test_decode_c2n : decode 0b0000010111111111#16 = .instr (.c2n 0b11111111#8) := by decide

/-- Reserved words (R65): a reserved op, a YUV code, a code with a low bit set. -/
theorem test_decode_reserved : decode 0x0010#16 = .illegalOp 0x00#8 ∧ decode 0x0610#16 = .illegalOp 0x06#8 ∧
    decode 0x0120#16 = .reservedEncodeFormat 0x20#8 ∧ decode 0x0211#16 = .reservedDecodeFormat 0x11#8 := by
  decide

/-- The host's word, and a table row's don't-care bits of zeros. -/
theorem test_decodeTableWord : decodeTableWord 16 0x0290 = some .decI4Alt ∧
    decodeTableWord 16 0x0400 = some (.n2c 0x00#8) ∧ decodeTableWord 16 0x0600 = none := by decide

/-! ## One step of each instruction (95_test_vectors.md) -/

/-- E1. -/
theorem test_encOneBpp : enc 0x0100 8 1 (alphas [0, 1, 0, 255, 0, 0, 0, 128]) = packed [0x51] := by decide
/-- EE7. -/
theorem test_encOneBpp_width : enc 0x0100 4 2 (alphas [0, 0, 0, 0, 0, 0, 0, 0]) =
    failure (.dimension 4 2 8) := by decide
/-- E8. -/
theorem test_encRgba16 : enc 0x0110 1 1 [px 7 8 15 254] = packed [0x00, 0x42] := by decide
/-- E9. -/
theorem test_encRgba16_saturates : enc 0x0110 1 1 [px 16 247 248 255] = packed [0x17, 0xBF] := by decide
/-- E11. -/
theorem test_encRgba32 : enc 0x0118 2 1 [px 1 2 3 4, px 255 0 128 7] =
    packed [1, 2, 3, 4, 255, 0, 128, 7] := by decide
/-- E13. -/
theorem test_encIa4 : enc 0x0160 2 1 [px 31 31 31 255, px 32 32 32 254] = packed [0x12] := by decide
/-- E14. -/
theorem test_encIa4_average : enc 0x0160 2 1 [px 95 96 96 255, px 0 0 0 255] = packed [0x51] := by decide
/-- E17. -/
theorem test_encIa8 : enc 0x0168 1 1 [px 200 100 0 128] = packed [0x68] := by decide
/-- E21. -/
theorem test_encIa16 : enc 0x0170 1 1 [px 10 20 31 200] = packed [0x14, 0xC8] := by decide
/-- E26. -/
theorem test_encI4 : enc 0x0180 2 1 [px 95 96 96 0, px 240 240 240 0] = packed [0x5F] := by decide
/-- EE6: the product rule, an odd width. -/
theorem test_encI4_oddWidth : enc 0x0180 3 2 (List.replicate 6 (px 0 0 0 0)) = packed [0, 0, 0] := by decide
/-- E28. -/
theorem test_encI4Alt : enc 0x0190 2 1 [px 255 255 254 1, px 17 17 17 1] = packed [0xF1] := by decide
/-- E30. -/
theorem test_encI8 : enc 0x0188 2 2 [px 255 255 254 0, px 0 0 2 9, px 1 1 1 1, px 255 255 255 0] =
    packed [0xFE, 0x00, 0x01, 0xFF] := by decide
/-- EE1. -/
theorem test_encCi4 : enc 0x0140 2 2 (alphas [1, 2, 3, 4]) =
    failure (.unsupportedFormat 0x01#8 0x40#8) := by decide
/-- EE2. -/
theorem test_encCi8 : enc 0x0148 3 1 [] = failure (.unsupportedFormat 0x01#8 0x48#8) := by decide
/-- EE8, EE9, EE10: the checks and their order. -/
theorem test_encode_checks : enc 0x0110 2 2 (alphas [1, 2, 3]) = failure (.length 4 3) ∧
    enc 0x0160 1 1 [] = failure (.dimension 1 1 2) ∧
    enc 0x0110 3 3 (List.replicate 9 (px 0 0 0 0)) { Config.spec with maxPixels := some 8 } =
      failure (.dimension 3 3 1) := by decide

/-- D1. -/
theorem test_decOneBpp : dec 0x0200 8 1 [0x81] = picture 8 1 ['R', 'G', 'B', 'A', '4']
    ([px 255 255 255 255] ++ List.replicate 6 (px 0 0 0 0) ++ [px 255 255 255 255]) := by decide
/-- D3. -/
theorem test_decRgba16 : dec 0x0210 2 1 [0xFF, 0xFE, 0x84, 0x21] =
    picture 2 1 ['R', 'G', 'B', 'A', '1', '6'] [px 248 248 248 0, px 128 128 128 255] := by decide
/-- S9: the green and the blue field. -/
theorem test_decRgba16_fields : dec 0x0210 2 1 [0x07, 0xC0, 0x00, 0x3E] =
    picture 2 1 ['R', 'G', 'B', 'A', '1', '6'] [px 0 248 0 0, px 0 0 248 0] := by decide
/-- D4. -/
theorem test_decRgba32 : dec 0x0218 1 1 [1, 2, 3, 4] =
    picture 1 1 ['R', 'G', 'B', 'A', '3', '2'] [px 1 2 3 4] := by decide
/-- D8: the low pixel's intensity is bits 3:1. -/
theorem test_decIa4 : dec 0x0260 2 1 [0x1E] =
    picture 2 1 ['I', 'A', '4'] [px 0 0 0 255, px 224 224 224 0] := by decide
/-- D6. -/
theorem test_decIa8 : dec 0x0268 2 1 [0x68, 0x0F] =
    picture 2 1 ['I', 'A', '8'] [px 96 96 96 128, px 0 0 0 240] := by decide
/-- D5. -/
theorem test_decIa16 : dec 0x0270 1 1 [0x14, 0xC8] =
    picture 1 1 ['I', 'A', '1', '6'] [px 20 20 20 200] := by decide
/-- D12. -/
theorem test_decI4 : dec 0x0280 2 1 [0xF0] =
    picture 2 1 ['I', '4'] [px 240 240 240 255, px 0 0 0 255] := by decide
/-- D13. -/
theorem test_decI4_intensity : dec 0x0280 2 1 [0x1F] none { Config.spec with i4DecodeAlpha := .intensity } =
    picture 2 1 ['I', '4'] [px 16 16 16 16, px 240 240 240 240] := by decide
/-- D14. -/
theorem test_decI4Alt : dec 0x0290 2 1 [0xF0] =
    picture 2 1 ['I', '1', '6'] [px 240 240 240 255, px 0 0 0 255] := by decide
/-- D11. -/
theorem test_decI8 : dec 0x0288 2 1 [0x00, 0xFF] =
    picture 2 1 ['I', '8'] [px 0 0 0 0, px 255 255 255 255] := by decide
/-- D15. -/
theorem test_decCi4 : dec 0x0240 2 1 [0x01] (some [0x0000, 0x8421]) =
    picture 2 1 ['C', 'I', '4'] [px 0 0 0 0, px 128 128 128 255] := by decide
/-- P2 line 3: the first of two pixels with index 3. -/
theorem test_decCi4_index : dec 0x0240 4 1 [0x03, 0x30] (some [0x0000, 0x8421, 0xF801]) =
    failure (.paletteIndex 1 3 3) := by decide
/-- D18. -/
theorem test_decCi8 : dec 0x0248 1 1 [0x05] (some [0, 0, 0, 0, 0, 0xF801]) =
    picture 1 1 ['C', 'I', '8'] [px 248 0 0 255] := by decide
/-- D20: an empty palette is present. -/
theorem test_decCi8_empty : dec 0x0248 2 1 [0x01, 0x02] (some []) = failure (.paletteIndex 0 1 0) := by
  decide
/-- DE1 to DE9: the checks and their order. -/
theorem test_decode_checks : dec 0x0240 2 1 [0x01] = failure (.missingPalette 0x40#8) ∧
    dec 0x0240 2 1 [0x01, 0x02] = failure (.length 1 2) ∧
    dec 0x0240 3 1 [0x01, 0x02] = failure (.dimension 3 1 2) ∧
    dec 0x0220 0 0 [] = failure (.unsupportedFormat 0x02#8 0x20#8) ∧
    dec 0x0200 4 2 [0x00] = failure (.dimension 4 2 8) ∧
    dec 0x0240 0 0 [] = failure (.missingPalette 0x40#8) ∧
    dec 0x0210 0 7 [] = picture 0 7 ['R', 'G', 'B', 'A', '1', '6'] [] := by decide

/-- C1, C2: 0x90 and a reserved code. -/
theorem test_bpp : responseTo Config.spec (Request.bare 0x0390#16) = some (.ok (.bits 4)) ∧
    responseTo Config.spec (Request.bare 0x0311#16) = some (.ok (.bits 16)) := by decide
/-- C3, C8: folding, and an ignored format byte. -/
theorem test_n2c : n2c 0x0400 ['C', 'i', '8'] = code 0x48 ∧ n2c 0x04AB ['i', 'a', '8'] = code 0x68 := by
  decide
/-- C4, C5: no trimming, and U+0130 is not folded. -/
theorem test_n2c_default : n2c 0x0400 ['i', 'a', '1', '6', ' '] = code 0x10 ∧
    n2c 0x0400 [Char.ofNat 0x130, 'a', '4'] = code 0x10 ∧ n2c 0x0400 [] = code 0x10 := by decide
/-- C7, C8: only the low bits are read. -/
theorem test_c2n : c2n 0x05FF 8 6 = some (.ok (.label ['R', 'G', 'B', 'A', '1', '6'])) ∧
    c2n 0x0500 5 3 = some (.ok (.label ['U', 'n', 'k', 'n', 'o', 'w', 'n', '3', '2'])) := by decide
/-- DE11. -/
theorem test_illegalOp : responseTo Config.spec (Request.bare 0xFF10#16) =
    failure (.illegalOp 0xFF#8) := by decide

/-- The host's placing on the reset state. -/
theorem test_withFetchWord : (State.reset.withFetchWord 16 0x0148).fetch = some (.instr .encCi8) ∧
    deliveredBy (step (State.reset.withFetchWord 16 0x0148)) =
      failure (.unsupportedFormat 0x01#8 0x48#8) := by decide

/-! ## Witnesses: the machine -/

/-- A request that encodes one pixel to IA16. -/
def requestA : Request := (AsmLine.enc 0x70#8 ⟨1, 1, [px 10 20 31 200]⟩).request

/-- A request that decodes one pixel through a palette. -/
def requestB : Request := (AsmLine.dec 0x48#8 (bytes [1]) 1 1 (some (halves [0, 0x8421]))).request

/-- Two transactions in progress, the later one next, and a response still held. -/
def busy : State :=
  { config := { i4DecodeAlpha := .intensity, maxPixels := some 64 }
    pending := [⟨requestA, []⟩, ⟨requestB, []⟩], order := [1, 0], response := some (.ok (.bits 4)),
    draws := 3 }

/-- As `busy`, but the host changed the palette of the transaction that is next. -/
def disturbedBusy : State := busy.changeInput 1 .palette

/-- Hypotheses of InstructionFrame and NothingChangesTheConfiguration, undisturbed: the later transaction is
answered, and the earlier one stays. -/
theorem witness_exec_next : exec .decCi8 busy = .next
    { config := busy.config, pending := [⟨requestA, []⟩], order := [0],
      response := picture 1 1 ['C', 'I', '8'] [px 128 128 128 255], draws := 3 } ∧
    step busy = exec .decCi8 busy := ⟨rfl, rfl⟩

/-- Hypotheses of InstructionFrame with a draw, and of ChangedInputsDrawTheResponse. -/
theorem witness_exec_draw : disturbedBusy.current = some ⟨requestB, [.palette]⟩ ∧
    requestB.wellFormed = true ∧ decode requestB.cmd = .instr .decCi8 ∧
    exec .decCi8 disturbedBusy = .next disturbedBusy.draw :=
  ⟨by decide, by decide, by decide, rfl⟩

/-- R195 says "any input buffer of that request": a palette that a reserved DECODE does not read, and pixels
sent with the reserved op of 95_test_vectors.md P3 line 7, draw too. -/
theorem test_unread_change_draws :
    (let s := State.alone Config.spec (decRequest 0x0220 0 0 [] (some [7]))
     step (s.changeInput 0 .palette) = .next (s.changeInput 0 .palette).draw) ∧
    (let s := State.alone Config.spec { Request.bare 0x0610#16 with pixels := some ⟨1, 1, [px 1 2 3 4]⟩ }
     step (s.changeInput 0 .pixels) = .next (s.changeInput 0 .pixels).draw) := ⟨rfl, rfl⟩

/-- A change of another transaction's input is none of this one's. -/
theorem test_other_change : step (busy.changeInput 0 .pixels) = (match step busy with
    | .next s => .next (s.changeInput 0 .pixels)
    | other => other) := rfl

/-- Hypotheses of ResetCutsTransactionsShort, StepRunsTheDecodedInstruction, ResponseIsTheOneItWouldHaveAlone
and FirstErrorInPriorityIsReported: an undisturbed well-formed transaction is next. -/
theorem witness_current : busy.current = some ⟨requestB, []⟩ ∧ requestB.wellFormed = true ∧
    decode requestB.cmd = .instr .decCi8 := by decide

/-- Hypothesis of StepIdlesWithoutATransaction, in a state that holds a response. -/
theorem witness_idle : ({ busy with pending := [] } : State).pending = [] ∧
    ({ busy with pending := [] } : State).idle.response = none := by decide

/-- Hypotheses of WellFormedStatesAlwaysStep, PresentKeepsWellFormed and EveryTransactionEnds. -/
theorem witness_wellFormed : busy.wellFormed = true ∧ busy.pending.length = 2 ∧
    busy.present requestA = .ok { busy with pending := busy.pending ++ [⟨requestA, []⟩] } := by decide

/-- An illegal state, which the invariant rules out. -/
theorem test_illFormed_state : (State.alone Config.spec (Request.bare 0x0110#16)).wellFormed = false ∧
    step (State.alone Config.spec (Request.bare 0x0110#16)) = .refused (.missingOperand .pixels) :=
  ⟨by decide, rfl⟩

/-- Hypotheses of ReservedCommandsAnswerTheirError, clause by clause, at the ends of the reserved ranges. -/
theorem witness_reserved_op : ∀ op ∈ [0x00#8, 0x06#8, 0xFF#8], (Request.bare (op ++ 0x10#8)).op = op ∧
    (op = 0x00#8 ∨ 6 ≤ op.toNat) := by decide

theorem witness_reserved_encode : (AsmLine.enc 0x20#8 ⟨0, 0, []⟩).request.op = 0x01#8 ∧
    (AsmLine.enc 0x20#8 ⟨0, 0, []⟩).request.fmt ∉ codes ∧
    (AsmLine.enc 0x20#8 ⟨0, 0, []⟩).request.pixels.isSome := by decide

theorem witness_reserved_decode : (decRequest 0x0291 0 0 []).op = 0x02#8 ∧
    (decRequest 0x0291 0 0 []).fmt ∉ codes ∧ (decRequest 0x0291 0 0 []).data.isSome ∧
    (decRequest 0x0291 0 0 []).width.isSome ∧ (decRequest 0x0291 0 0 []).height.isSome := by decide

theorem witness_reserved_bpp : (Request.bare 0x0308#16).op = 0x03#8 ∧
    (Request.bare 0x0308#16).fmt ∉ codes := by decide

/-- `Serves`, the hypothesis of the per-instruction statements, holds of every request presented alone, and
in a busy state too. -/
theorem witness_serves : (∀ cfg r, (State.alone cfg r).Serves r) ∧ busy.Serves requestB :=
  ⟨State.alone_serves, ⟨requestB, []⟩, by decide, rfl, rfl⟩

/-- The first clause of MissingOperandIsRefused: each field lacking, in a request that stands alone. -/
theorem witness_missing : (∀ cmd, (State.alone Config.spec (Request.bare cmd)).current =
      some ⟨Request.bare cmd, []⟩) ∧
    Lacks (Request.bare 0x0110#16) .pixels ∧ Lacks (Request.bare 0x0140#16) .pixels ∧
    Lacks (Request.bare 0x0120#16) .pixels ∧ Lacks (Request.bare 0x0210#16) .data ∧
    Lacks (Request.bare 0x0210#16) .width ∧ Lacks (Request.bare 0x0210#16) .height ∧
    Lacks (Request.bare 0x0400#16) .name ∧ Lacks (Request.bare 0x0500#16) .colorBits ∧
    Lacks (Request.bare 0x0500#16) .sizeBits :=
  ⟨fun _ => rfl, by decide⟩

/-- The second clause of MissingOperandIsRefused: a DEC.CI4 without a palette. -/
theorem witness_palette_may_be_absent : (decRequest 0x0240 2 1 [1]).palette = none ∧
    (decRequest 0x0240 2 1 [1]).data.isSome ∧ (decRequest 0x0240 2 1 [1]).op = 0x02#8 := by decide

/-- Hypotheses of UnreadFieldsAreIgnored: two requests that differ in the palette that RGBA16 does not read,
and two that differ in the byte that N2C ignores. -/
theorem witness_unread :
    decRequest 0x0210 1 1 [1, 2] ≠ decRequest 0x0210 1 1 [1, 2] (some [7]) ∧
    (decRequest 0x0210 1 1 [1, 2]).op = (decRequest 0x0210 1 1 [1, 2] (some [7])).op ∧
    (decRequest 0x0210 1 1 [1, 2]).data = (decRequest 0x0210 1 1 [1, 2] (some [7])).data ∧
    (decRequest 0x0210 1 1 [1, 2]).fmt ≠ 0x40#8 ∧ (decRequest 0x0210 1 1 [1, 2]).fmt ≠ 0x48#8 ∧
    (Request.bare 0x0400#16).op = (Request.bare 0x04AB#16).op ∧ Request.bare 0x0400#16 ≠ Request.bare 0x04AB#16
    := by decide

/-! ## Witnesses: each error condition (60_exceptions.md R170) -/

theorem witness_condition_illegalOp : Condition Config.spec (Request.bare 0x0600#16) .illegalOp :=
  .inr (by decide)

theorem witness_condition_unsupported :
    Condition Config.spec (AsmLine.enc 0x40#8 ⟨1, 1, []⟩).request .unsupportedFormat ∧
    Condition Config.spec (decRequest 0x0220 0 0 []) .unsupportedFormat :=
  ⟨.inl (by decide), .inr (by decide)⟩

/-- The dimension condition, with the length and the palette condition of the same request. -/
theorem witness_condition_dimension : Condition Config.spec (decRequest 0x0240 3 1 [1]) .dimension ∧
    Condition Config.spec (decRequest 0x0240 3 1 [1]) .length ∧
    Condition Config.spec (decRequest 0x0240 3 1 [1]) .missingPalette := by
  refine ⟨⟨3, 1, 2, .inr (by decide), by decide, .inr (.inl (by decide))⟩,
    .inr ⟨by decide, bytes [1], 3, 1, 4, rfl, rfl, rfl, by decide, by decide⟩, by decide⟩

/-- An index equal to the palette's length is out of range (42_decode.md R151), at two pixels. -/
theorem witness_condition_paletteIndex :
    Condition Config.spec (decRequest 0x0248 2 1 [2, 2] (some [0, 1])) .paletteIndex ∧
    IndexAt (decRequest 0x0248 2 1 [2, 2] (some [0, 1])) 0 2 ∧
    IndexAt (decRequest 0x0248 2 1 [2, 2] (some [0, 1])) 1 2 ∧
    dec 0x0248 2 1 [2, 2] (some [0, 1]) = failure (.paletteIndex 0 2 2) := by
  refine ⟨⟨by decide, bytes [2, 2], 2, 1, halves [0, 1], 0, 2, rfl, rfl, rfl, rfl, by decide, by decide,
    .inr ⟨by decide, _, rfl, rfl⟩⟩, ⟨bytes [2, 2], 2, 1, rfl, rfl, rfl, by decide, .inr ⟨by decide, _, rfl, rfl⟩⟩,
    ⟨bytes [2, 2], 2, 1, rfl, rfl, rfl, by decide, .inr ⟨by decide, _, rfl, rfl⟩⟩, by decide⟩

/-! ## Witnesses: ENCODE and DECODE -/

/-- The dimension clause of Encodes, Decodes and DecodesIndexed, by each of its three ways: one pixel over
the limit, an odd number of pixels, a width of 4. At the limit the dimensions are good, for every group. -/
theorem witness_dimensions (cfg : Config) :
    BadDims { cfg with maxPixels := some 7 } 1 1 8 1 ∧ BadDims cfg 2 1 3 1 ∧ BadDims cfg 8 8 4 2 ∧
    ∀ group ∈ [1, 2, 8], ∀ divisor ∈ [1, 8], ¬ BadDims { cfg with maxPixels := some 8 } group divisor 8 1 := by
  refine ⟨.inl ⟨7, rfl, by decide⟩, .inr (.inl (by decide)), .inr (.inr (by decide)), ?_⟩
  intro group hg divisor hd hbad
  rcases hbad with ⟨m, hm, hlt⟩ | hbad
  · cases hm
    omega
  · revert hbad
    revert divisor group
    decide

/-- The length clause and the OK clause of Encodes: an 8x1 buffer with seven and with eight pixels, which
suits every group and divisor (the clause on dimensions: `witness_dimensions`). -/
theorem witness_encode_pixels : (alphas [0, 1, 0, 255, 0, 0, 0]).length ≠ 8 * 1 ∧
    (alphas [0, 1, 0, 255, 0, 0, 0, 128]).length = 8 * 1 ∧
    (AsmLine.enc 0x60#8 ⟨8, 1, alphas [0, 1, 0, 255, 0, 0, 0, 128]⟩).request.pixels =
      some ⟨8, 1, alphas [0, 1, 0, 255, 0, 0, 0, 128]⟩ := by decide

/-- The length clause and the OK clause of Decodes, for each length function: 8x1 pixels at 1, 4, 8, 16 and 32
bits a pixel, from the shortest to the longest data, and one byte too many. -/
theorem witness_decode_data : (bytes [0x81]).length = 8 / 8 ∧ (bytes [1, 2, 3, 4]).length = 8 / 2 ∧
    (bytes [1, 2, 3, 4, 5, 6, 7, 8]).length = 8 ∧
    (List.replicate 16 0x84#8).length = 2 * 8 ∧ (List.replicate 32 0x84#8).length = 4 * 8 ∧
    (bytes [0x81, 0]).length ≠ 8 / 8 ∧
    (decRequest 0x0200 8 1 [0x81]).data = some (bytes [0x81]) ∧
    (decRequest 0x0200 8 1 [0x81]).width = some 8 ∧ (decRequest 0x0200 8 1 [0x81]).height = some 1 := by
  decide

/-- The palette clauses of DecodesIndexed for CI4: byte 0x12 holds index 1 and then index 2, so a palette of
two entries fails at pixel 1 and one of three does not. -/
theorem witness_ci4_indices : NibbleIs (bytes [0x12]) 0 1 ∧ NibbleIs (bytes [0x12]) 1 2 ∧
    (∀ k' v', k' < 1 → NibbleIs (bytes [0x12]) k' v' → v' < 2) ∧
    (∀ k v, k < 2 * 1 → NibbleIs (bytes [0x12]) k v → v < 3) := by
  refine ⟨⟨_, rfl, rfl⟩, ⟨_, rfl, rfl⟩, ?_, ?_⟩
  · rintro k v hk ⟨b, hb, rfl⟩
    interval_cases k
    cases hb
    decide
  · rintro k v hk ⟨b, hb, rfl⟩
    interval_cases k <;> (cases hb; decide)

/-- The palette clauses of DecodesIndexed for CI8. -/
theorem witness_ci8_indices : ByteIs (bytes [0x00, 0x10]) 1 16 ∧
    (∀ k' v', k' < 1 → ByteIs (bytes [0x00, 0x10]) k' v' → v' < 16) ∧
    (∀ k v, k < 2 * 1 → ByteIs (bytes [0x00, 0x10]) k v → v < 17) := by
  refine ⟨⟨_, rfl, rfl⟩, ?_, ?_⟩
  · rintro k v hk ⟨b, hb, rfl⟩
    interval_cases k
    cases hb
    decide
  · rintro k v hk ⟨b, hb, rfl⟩
    interval_cases k <;> (cases hb; decide)

/-- All hypotheses of the OK clause of Encodes together, for every group and divisor: one state. -/
theorem witness_encodes : ∃ (s : State) (r : Request) (p : PixelBuffer), s.Serves r ∧
    r.pixels = some p ∧ p.pixels.length = p.width * p.height ∧
    ∀ group ∈ [1, 2, 8], ∀ divisor ∈ [1, 8], ¬ BadDims s.config group divisor p.width p.height :=
  ⟨State.alone { Config.spec with maxPixels := some 8 } (AsmLine.enc 0x60#8 ⟨8, 1, alphas (List.replicate 8 1)⟩).request,
    _, ⟨8, 1, alphas (List.replicate 8 1)⟩, State.alone_serves _ _, rfl, by decide, (witness_dimensions _).2.2.2⟩

/-- All hypotheses of the OK clause of Decodes together, for every group, divisor and length. -/
theorem witness_decodes : ∀ bits ∈ [1, 4, 8, 16, 32], ∃ (s : State) (r : Request) (d : List Byte) (w h : Nat),
    s.Serves r ∧ r.data = some d ∧ r.width = some w ∧ r.height = some h ∧ 8 * d.length = w * h * bits ∧
    ∀ group ∈ [1, 2, 8], ∀ divisor ∈ [1, 8], ¬ BadDims s.config group divisor w h := fun bits _ =>
  ⟨State.alone { Config.spec with maxPixels := some 8 }
      (AsmLine.dec 0x60#8 (List.replicate bits 0x84#8) 8 1 none).request,
    _, List.replicate bits 0x84#8, 8, 1, State.alone_serves _ _, rfl, rfl, rfl, by simp,
    (witness_dimensions _).2.2.2⟩

/-- All hypotheses of the palette clauses of DecodesIndexed together, for CI4: no palette, one that is too
short by one entry, and one that is just long enough. -/
theorem witness_decodes_indexed : ∀ pal ∈ [none, some [0x0000#16, 0x8421#16], some [0#16, 0#16, 0xF801#16]],
    ∃ (s : State) (r : Request), s.Serves r ∧ r.data = some (bytes [0x12]) ∧
      r.width = some 2 ∧ r.height = some 1 ∧ r.palette = pal ∧ ¬ BadDims s.config 2 1 2 1 ∧
      (bytes [0x12]).length = 2 * 1 / 2 := fun pal _ =>
  ⟨State.alone Config.spec (AsmLine.dec 0x40#8 (bytes [0x12]) 2 1 pal).request, _,
    State.alone_serves _ _, rfl, rfl, rfl, rfl,
    fun h => h.elim (fun ⟨_, hm, _⟩ => nomatch hm) (by decide), by decide⟩

/-- Palette bytes with an entry, and a palette byte too many (PaletteBytesAreBigEndianEntries). -/
theorem witness_palette_bytes : paletteOfBytes (bytes [0x84, 0x21, 0x07]) = halves [0x8421] := by decide

/-- Hypotheses of NameToCodeFoldsAndDefaults and CodeToNameReadsThreeAndTwoBits. -/
theorem witness_catalog_operands : (AsmLine.n2c ['b']).request.name = some ['b'] ∧
    (AsmLine.c2n 0x08#8 0x06#8).request.colorBits = some 0x08#8 ∧
    (AsmLine.c2n 0x08#8 0x06#8).request.sizeBits = some 0x06#8 := by decide

/-- The unknown name of 30_encoding.md R67: no name of the table is its folding. -/
theorem witness_unknown_name : ∀ t, Folds ['b', 'o', 'g', 'u', 's'] t → ∀ e ∈ names, e.1.toList ≠ t := by
  intro t ht e he h
  have hlen := ht.length_eq
  rw [← h] at hlen
  have none : ∀ e ∈ names, e.1.toList.length ≠ 5 := by decide
  exact none e he hlen.symm

/-! ## Witnesses: round trips (95_test_vectors.md 2.4) -/

/-- Hypotheses of DecodeOfEncodePerFormat and EncodedLengthIsPackedLen, for every format of R154. -/
theorem witness_encodings : ∀ e ∈ [(0x18#8, [0x64, 0x96, 0xC8, 0xFE]), (0x10#8, [0x64, 0xB2]),
    (0x70#8, [0x96, 0xFE]), (0x68#8, [0x9F]), (0x88#8, [0x96])],
    responseTo Config.spec (AsmLine.enc e.1 ⟨1, 1, [px 100 150 200 254]⟩).request = packed e.2 := by decide

theorem witness_encodings_groups : ∀ e ∈ [(0x60#8, [0x88, 0x88, 0x88, 0x88]),
    (0x80#8, [0x99, 0x99, 0x99, 0x99]), (0x90#8, [0x99, 0x99, 0x99, 0x99]), (0x00#8, [0xFF])],
    responseTo Config.spec (AsmLine.enc e.1 ⟨8, 1, List.replicate 8 (px 100 150 200 254)⟩).request =
      packed e.2 := by decide

/-- Hypotheses of EncodeOfDecodeIsTheData and DecodeResultHoldsItsPixelsAndMetadata, on the examples of 2.4. -/
theorem witness_decodings :
    responseTo Config.spec (AsmLine.dec 0x60#8 (bytes [0xE1]) 2 1 none).request =
      picture 2 1 ['I', 'A', '4'] [px 224 224 224 0, px 0 0 0 255] ∧
    responseTo Config.spec (AsmLine.dec 0x68#8 (bytes [0x0F]) 1 1 none).request =
      picture 1 1 ['I', 'A', '8'] [px 0 0 0 240] ∧
    responseTo Config.spec (AsmLine.dec 0x10#8 (bytes [0xFF, 0xFE]) 1 1 none).request =
      picture 1 1 ['R', 'G', 'B', 'A', '1', '6'] [px 248 248 248 0] ∧
    responseTo Config.spec (AsmLine.dec 0x80#8 (bytes [0x1F]) 2 1 none).request =
      picture 2 1 ['I', '4'] [px 16 16 16 255, px 240 240 240 255] := by decide

end Sys2Proof.Tests
end

section
/-! Round trips and the helper functions: what a request alone answers, what comes back from packed pixels,
and the first law of 42_decode.md R154. -/

namespace Sys2Proof.Machine

open Sys2Proof.Claims (responseTo PixelIs roundTrip)

/-! ## The response to a request alone -/

/-- An instruction that serves the request with `body` answers OK exactly where `body` does. -/
theorem responseTo_eq_ok_iff {α : Type} {cfg : Config} {r : Request} {i : Instr}
    {operands : Request → Except OperandField α} {body : α → Except ErrorReport Result} {x : α} {v : Result}
    (hi : decode r.cmd = .instr i)
    (hexec : exec i (State.alone cfg r) = serve operands body (State.alone cfg r))
    (hx : operands r = .ok x) : responseTo cfg r = some (.ok v) ↔ body x = .ok v := by
  rw [responseTo, step_of_current (State.alone_current cfg r), hi]
  simp only [hexec, serve_of_serves (State.alone_serves cfg r) hx, deliveredBy]
  cases body x <;> simp

/-- ENCODE answers OK exactly with the packed pixels of a buffer that passes the checks of 41_encode.md
R110. -/
theorem encodeBody_eq_ok_iff {cfg : Config} {fmt : Byte} {pack : PixelBuffer → List Byte} {p : PixelBuffer}
    {v : Result} : encodeBody cfg fmt pack p = .ok v ↔
      badDimension cfg fmt p.width p.height = false ∧ p.pixels.length = p.count ∧ v = .bytes (pack p) := by
  rcases encodeBody_cases cfg fmt pack p with ⟨hb, h⟩ | ⟨hb, hl, h⟩ | ⟨hb, hl, h⟩
  · simp [hb, h]
  · simp [hb, hl, h]
  · simp [hb, hl, h, eq_comm]

/-- DECODE pixel by pixel answers OK exactly with the pixels of data that passes the checks of 42_decode.md
R140. -/
theorem decodeBody_unpackEach_eq_ok_iff {cfg : Config} {fmt : Byte} {pixel : List Byte → Nat → Pixel}
    {o : DecodeOperands} {v : Result} : decodeBody cfg fmt (unpackEach pixel) o = .ok v ↔
      badDimension cfg fmt o.width o.height = false ∧ o.data.length = packedLen fmt o.width o.height ∧
      v = .picture ⟨o.width, o.height, (List.range o.count).map (pixel o.data)⟩
        ⟨metadataName fmt, o.width, o.height⟩ := by
  rcases decodeBody_cases cfg fmt (unpackEach pixel) o with
    ⟨hb, h⟩ | ⟨hb, hl, h⟩ | ⟨hb, hl, ⟨e, he, h⟩ | ⟨px, hpx, h⟩⟩
  · simp [hb, h]
  · simp [hb, hl, h]
  · cases he
  · cases hpx
    simp [hb, hl, h, eq_comm]

/-! ## The codec of a format -/

/-- The two directions of a format that both ENCODE and DECODE implement, pixel by pixel: `pack` is what
ENCODE writes, `pixel` what DECODE reads, and the packed bytes have the length that DECODE asks for. -/
structure PixelCodec (cfg : Config) (fmt : Byte) (pack : PixelBuffer → List Byte)
    (pixel : List Byte → Nat → Pixel) : Prop where
  encodes : ∃ i, decode (0x01#8 ++ fmt) = .instr i ∧ exec i = serveEncode fmt pack
  decodes : ∃ i, decode (0x02#8 ++ fmt) = .instr i ∧
    ∀ s : State, s.config = cfg → exec i s = serveDecode fmt (unpackEach pixel) s
  packedLength : ∀ p : PixelBuffer, p.count % groupSize fmt = 0 →
    (pack p).length = packedLen fmt p.width p.height

section
variable {cfg : Config} {fmt : Byte} {pack : PixelBuffer → List Byte} {pixel : List Byte → Nat → Pixel}

/-- What a line of ENCODE answers with OK. -/
theorem PixelCodec.responseTo_enc_iff (c : PixelCodec cfg fmt pack pixel) {p : PixelBuffer} {v : Result} :
    responseTo cfg (AsmLine.enc fmt p).request = some (.ok v) ↔
      badDimension cfg fmt p.width p.height = false ∧ p.pixels.length = p.count ∧ v = .bytes (pack p) := by
  obtain ⟨i, hi, hexec⟩ := c.encodes
  rw [responseTo_eq_ok_iff (r := (AsmLine.enc fmt p).request) (body := encodeBody cfg fmt pack) hi
    (congrFun hexec _) (encodeOperand_of rfl)]
  exact encodeBody_eq_ok_iff

/-- What a line of DECODE answers with OK, whatever the palette. -/
theorem PixelCodec.responseTo_dec_iff (c : PixelCodec cfg fmt pack pixel) {d : List Byte} {w h : Nat}
    {pal : Option (List Half)} {v : Result} :
    responseTo cfg (AsmLine.dec fmt d w h pal).request = some (.ok v) ↔
      badDimension cfg fmt w h = false ∧ d.length = packedLen fmt w h ∧
      v = .picture ⟨w, h, (List.range (w * h)).map (pixel d)⟩ ⟨metadataName fmt, w, h⟩ := by
  obtain ⟨i, hi, hexec⟩ := c.decodes
  rw [responseTo_eq_ok_iff (r := (AsmLine.dec fmt d w h pal).request)
    (body := decodeBody cfg fmt (unpackEach pixel)) hi (hexec _ rfl) (decodeOperands_of rfl rfl rfl)]
  exact decodeBody_unpackEach_eq_ok_iff

end

/-! ## Packed lengths -/

theorem packFields_packedLength {fmt : Byte} {n : Nat} (field : Pixel → BitVec (8 * n)) (p : PixelBuffer)
    (hb : bpp fmt = 8 * n) : (packFields n field p).length = packedLen fmt p.width p.height := by
  have hbits : p.width * p.height * (8 * n) = 8 * (n * (p.width * p.height)) := by ring
  rw [packFields_length, packedLen, hb, hbits, PixelBuffer.count]
  omega

theorem packNibbles_packedLength {fmt : Byte} (field : Pixel → BitVec 4) {p : PixelBuffer}
    (hb : bpp fmt = 4) (hg : p.count % 2 = 0) :
    (packNibbles field p).length = packedLen fmt p.width p.height := by
  rw [PixelBuffer.count] at hg
  rw [packNibbles_length, packedLen, hb, PixelBuffer.count]
  omega

theorem packMask_packedLength {fmt : Byte} {p : PixelBuffer} (hb : bpp fmt = 1) (hg : p.count % 8 = 0) :
    (packMask p).length = packedLen fmt p.width p.height := by
  rw [PixelBuffer.count] at hg
  rw [packMask_length, packedLen, hb, PixelBuffer.count]
  omega

/-! ## The codecs of the nine codes that can be encoded -/

theorem pixelCodec_oneBpp (cfg : Config) :
    PixelCodec cfg 0x00#8 packMask (fun d i => maskPixel (bitField d i)) where
  encodes := ⟨.encOneBpp, by decide, rfl⟩
  decodes := ⟨.decOneBpp, by decide, fun _ _ => rfl⟩
  packedLength _ hg := packMask_packedLength rfl hg

theorem pixelCodec_rgba16 (cfg : Config) :
    PixelCodec cfg 0x10#8 (packFields 2 rgba16Field) (fun d i => expand16 (memRead d (2 * i) 2)) where
  encodes := ⟨.encRgba16, by decide, rfl⟩
  decodes := ⟨.decRgba16, by decide, fun _ _ => rfl⟩
  packedLength p _ := packFields_packedLength _ p rfl

theorem pixelCodec_rgba32 (cfg : Config) :
    PixelCodec cfg 0x18#8 (packFields 4 rgba32Field) (fun d i => rgba32Pixel d (4 * i)) where
  encodes := ⟨.encRgba32, by decide, rfl⟩
  decodes := ⟨.decRgba32, by decide, fun _ _ => rfl⟩
  packedLength p _ := packFields_packedLength _ p rfl

theorem pixelCodec_ia4 (cfg : Config) :
    PixelCodec cfg 0x60#8 (packNibbles ia4Field) (fun d i => ia4Pixel (nibbleField d i)) where
  encodes := ⟨.encIa4, by decide, rfl⟩
  decodes := ⟨.decIa4, by decide, fun _ _ => rfl⟩
  packedLength _ hg := packNibbles_packedLength _ rfl hg

theorem pixelCodec_ia8 (cfg : Config) :
    PixelCodec cfg 0x68#8 (packFields 1 ia8Field) (fun d i => ia8Pixel (memRead d i 1)) where
  encodes := ⟨.encIa8, by decide, rfl⟩
  decodes := ⟨.decIa8, by decide, fun _ _ => rfl⟩
  packedLength p _ := packFields_packedLength _ p rfl

theorem pixelCodec_ia16 (cfg : Config) :
    PixelCodec cfg 0x70#8 (packFields 2 ia16Field) (fun d i => ia16Pixel (memRead d (2 * i) 2)) where
  encodes := ⟨.encIa16, by decide, rfl⟩
  decodes := ⟨.decIa16, by decide, fun _ _ => rfl⟩
  packedLength p _ := packFields_packedLength _ p rfl

theorem pixelCodec_i4 (cfg : Config) :
    PixelCodec cfg 0x80#8 (packNibbles i4Field) (fun d i => i4Pixel cfg.i4DecodeAlpha (nibbleField d i)) where
  encodes := ⟨.encI4, by decide, rfl⟩
  decodes := ⟨.decI4, by decide, by rintro s rfl; rfl⟩
  packedLength _ hg := packNibbles_packedLength _ rfl hg

theorem pixelCodec_i4Alt (cfg : Config) :
    PixelCodec cfg 0x90#8 (packNibbles i4Field) (fun d i => i4Pixel cfg.i4DecodeAlpha (nibbleField d i)) where
  encodes := ⟨.encI4Alt, by decide, rfl⟩
  decodes := ⟨.decI4Alt, by decide, by rintro s rfl; rfl⟩
  packedLength _ hg := packNibbles_packedLength _ rfl hg

theorem pixelCodec_i8 (cfg : Config) :
    PixelCodec cfg 0x88#8 (packFields 1 Pixel.avg) (fun d i => i8Pixel (memRead d i 1)) where
  encodes := ⟨.encI8, by decide, rfl⟩
  decodes := ⟨.decI8, by decide, fun _ _ => rfl⟩
  packedLength p _ := packFields_packedLength _ p rfl

/-! ## Reading back what was packed -/

/-- The four bytes of an RGBA32 field (30_encoding.md R71). -/
theorem rgba32_fields (r g b a : Byte) :
    ((r ++ g ++ b ++ a : BitVec 32).extractLsb' 24 8 = r) ∧
    ((r ++ g ++ b ++ a : BitVec 32).extractLsb' 16 8 = g) ∧
    ((r ++ g ++ b ++ a : BitVec 32).extractLsb' 8 8 = b) ∧
    ((r ++ g ++ b ++ a : BitVec 32).extractLsb' 0 8 = a) := by
  refine ⟨?_, ?_, ?_, extract_append_low _ _⟩
  · rw [BitVec.extractLsb'_append_eq_of_le (by decide), BitVec.extractLsb'_append_eq_of_le (by decide)]
    exact extract_append_high _ _
  · rw [BitVec.extractLsb'_append_eq_of_le (by decide), BitVec.extractLsb'_append_eq_of_le (by decide)]
    exact extract_append_low _ _
  · rw [BitVec.extractLsb'_append_eq_of_le (by decide)]
    exact extract_append_low _ _

section
variable {p : PixelBuffer} {i : Nat} (hi : i < p.count)
include hi

theorem byteAt_packFields {n k : Nat} (field : Pixel → BitVec (8 * n)) (hk : k < n) :
    byteAt (packFields n field p) (n * i + k) = (field (p.pix i)).extractLsb' (8 * (n - 1 - k)) 8 :=
  byteAt_of (packFields_getElem? field p hi hk)

theorem memRead_packFields_one (field : Pixel → Byte) :
    memRead (packFields 1 field p) i 1 = field (p.pix i) := by
  have h := byteAt_packFields hi (n := 1) (k := 0) field (by decide)
  rw [Nat.one_mul, Nat.add_zero] at h
  rw [memRead_one, h]
  exact BitVec.extractLsb'_eq_self

theorem memRead_packFields_two (field : Pixel → Half) :
    memRead (packFields 2 field p) (2 * i) 2 = field (p.pix i) := by
  have hhi := byteAt_packFields hi (n := 2) (k := 0) field (by decide)
  have hlo := byteAt_packFields hi (n := 2) (k := 1) field (by decide)
  rw [Nat.add_zero] at hhi
  rw [memRead_two, hhi, hlo]
  exact append_extract (m := 8) (n := 8) _

/-- The four bytes of RGBA32 are the four channels (30_encoding.md R71). -/
theorem rgba32Pixel_packFields : rgba32Pixel (packFields 4 rgba32Field p) (4 * i) = p.pix i := by
  have channel {k : Nat} (hk : k < 4) := byteAt_packFields hi (n := 4) rgba32Field hk
  have first := channel (k := 0) (by decide)
  rw [Nat.add_zero] at first
  obtain ⟨hr, hg, hb, ha⟩ := rgba32_fields (p.pix i).r (p.pix i).g (p.pix i).b (p.pix i).a
  simp only [rgba32Pixel, memRead_one, first, channel (k := 1) (by decide), channel (k := 2) (by decide),
    channel (k := 3) (by decide), rgba32Field, hr, hg, hb, ha]

end

theorem nibbleField_packNibbles_of_even (field : Pixel → BitVec 4) {p : PixelBuffer} {i : Nat}
    (hi : i < p.count) (hg : p.count % 2 = 0) :
    nibbleField (packNibbles field p) i = field (p.pix i) :=
  nibbleField_packNibbles field p (by omega)

/-! ## The pixel that comes back -/

theorem ia4Pixel_ia4Field (x : Pixel) :
    ia4Pixel (ia4Field x) = grey (scale 32 (quantize 3 x.avg)) (expandFlag (opaqueFlag x.a)) := by
  rw [ia4Pixel, ia4Field, extract_append_high, extract_append_low]

theorem ia8Pixel_ia8Field (x : Pixel) :
    ia8Pixel (ia8Field x) = grey (scale 16 (quantize 4 x.avg)) (scale 16 (quantize 4 x.a)) := by
  rw [ia8Pixel, ia8Field, extract_append_high, extract_append_low]

theorem ia16Pixel_ia16Field (x : Pixel) : ia16Pixel (ia16Field x) = grey x.avg x.a := by
  rw [ia16Pixel, ia16Field, extract_append_high, extract_append_low]

theorem i4Pixel_i4Field (alpha : I4Alpha) (x : Pixel) : i4Pixel alpha (i4Field x) =
    grey (scale 16 (quantize 4 x.avg))
      (if alpha = .opaque255 then 255#8 else scale 16 (quantize 4 x.avg)) := by
  cases alpha <;> rfl

/-- The average of the statements is that of the model. -/
theorem claims_avg_eq (x : Pixel) : Claims.avg x = x.avg.toNat := (Pixel.avg_toNat x).symm

theorem scale_quantize_three_toNat (c : Byte) : (scale 32 (quantize 3 c)).toNat = c.toNat / 32 * 32 := by
  rw [scale_toNat _ (by decide), (quantize_eq_div c).1]

theorem scale_quantize_four_toNat (c : Byte) : (scale 16 (quantize 4 c)).toNat = c.toNat / 16 * 16 := by
  rw [scale_toNat _ (by decide), (quantize_eq_div c).2.1]

theorem scale_quantize_five_toNat (c : Byte) : (scale 8 (quantize 5 c)).toNat = c.toNat / 8 * 8 := by
  rw [scale_toNat _ (by decide), (quantize_eq_div c).2.2]

theorem expandFlag_opaqueFlag_toNat (a : Byte) :
    (expandFlag (opaqueFlag a)).toNat = if a.toNat = 255 then 255 else 0 := by
  rw [expandFlag_toNat, opaqueFlag_toNat]
  split <;> rfl

theorem expandFlag_maskFlag_toNat (a : Byte) :
    (expandFlag (maskFlag a)).toNat = if 0 < a.toNat then 255 else 0 := by
  rw [expandFlag_toNat, maskFlag_toNat]
  split <;> rfl

/-- The channels of a grey pixel, as numbers. -/
theorem pixelIs_grey {i a : Byte} {v w : Nat} (hi : i.toNat = v) (ha : a.toNat = w) :
    PixelIs (grey i a) v v v w :=
  ⟨hi, hi, hi, ha⟩

/-! ## The first law of R154 -/

/-- A buffer of the right size lists its pixels in order. -/
theorem PixelBuffer.pixels_eq_map_pix {p : PixelBuffer} (h : p.pixels.length = p.count) :
    p.pixels = (List.range p.count).map p.pix := by
  apply List.ext_getElem?
  intro i
  by_cases hi : i < p.count
  · rw [PixelBuffer.getElem?_pix (h ▸ hi)]
    simp [hi]
  · simp [hi, h]

/-- The bytes of an ENCODE decode, with the same dimensions, to pixels each related by `Back` to the pixel
encoded. -/
def RoundTrips (cfg : Config) (fmt : Byte) (Back : Pixel → Pixel → Prop) : Prop :=
  ∀ (p : PixelBuffer) (out : List Byte),
    responseTo cfg (AsmLine.enc fmt p).request = some (.ok (.bytes out)) →
    ∃ px m, responseTo cfg (AsmLine.dec fmt out p.width p.height none).request
        = some (.ok (.picture ⟨p.width, p.height, px⟩ m)) ∧
      List.Forall₂ Back p.pixels px

/-- The bytes of an ENCODE always pass the checks of DECODE, so it is enough to read back each pixel of a
buffer of whole pixel groups. -/
theorem PixelCodec.roundTrips {cfg : Config} {fmt : Byte} {pack : PixelBuffer → List Byte}
    {pixel : List Byte → Nat → Pixel} {Back : Pixel → Pixel → Prop} (c : PixelCodec cfg fmt pack pixel)
    (back : ∀ (p : PixelBuffer) (i : Nat), i < p.count → p.count % groupSize fmt = 0 →
      Back (p.pix i) (pixel (pack p) i)) : RoundTrips cfg fmt Back := by
  intro p out henc
  obtain ⟨hgood, hlen, hout⟩ := c.responseTo_enc_iff.mp henc
  cases hout
  have hgroup : p.count % groupSize fmt = 0 := group_of_good hgood
  refine ⟨_, _, c.responseTo_dec_iff.mpr ⟨hgood, c.packedLength p hgroup, rfl⟩, ?_⟩
  rw [PixelBuffer.pixels_eq_map_pix hlen, List.forall₂_map_left_iff, List.forall₂_map_right_iff,
    PixelBuffer.count, List.forall₂_same]
  exact fun i hi => back p i (List.mem_range.mp hi) hgroup

/-- The rows of R154 for the two codes of I4, which pack and read alike. -/
theorem PixelCodec.roundTrips_i4 {cfg : Config} {fmt : Byte} (hg : groupSize fmt = 2)
    (c : PixelCodec cfg fmt (packNibbles i4Field) fun d i => i4Pixel cfg.i4DecodeAlpha (nibbleField d i)) :
    RoundTrips cfg fmt fun x y => PixelIs y (Claims.avg x / 16 * 16) (Claims.avg x / 16 * 16)
      (Claims.avg x / 16 * 16) (if cfg.i4DecodeAlpha = .opaque255 then 255 else Claims.avg x / 16 * 16) := by
  refine c.roundTrips fun p i hi hgroup => ?_
  rw [nibbleField_packNibbles_of_even _ hi (hg ▸ hgroup), i4Pixel_i4Field, claims_avg_eq]
  refine pixelIs_grey (scale_quantize_four_toNat _) ?_
  split
  · rfl
  · exact scale_quantize_four_toNat _

/-- Every row of the table of R154. -/
theorem roundTrips_of_mem_roundTrip (cfg : Config) : ∀ e ∈ roundTrip cfg, RoundTrips cfg e.1 e.2 := by
  simp only [roundTrip, List.forall_mem_cons]
  refine ⟨?rgba32, ?rgba16, ?ia16, ?ia8, ?ia4, ?i8, ?i4, ?i4Alt, ?oneBpp, by simp⟩
  case rgba32 => exact (pixelCodec_rgba32 cfg).roundTrips fun p i hi _ => rgba32Pixel_packFields hi
  case rgba16 =>
    refine (pixelCodec_rgba16 cfg).roundTrips fun p i hi _ => ?_
    rw [memRead_packFields_two hi, expand16_rgba16Field]
    exact ⟨scale_quantize_five_toNat _, scale_quantize_five_toNat _, scale_quantize_five_toNat _,
      expandFlag_opaqueFlag_toNat _⟩
  case ia16 =>
    refine (pixelCodec_ia16 cfg).roundTrips fun p i hi _ => ?_
    rw [memRead_packFields_two hi, ia16Pixel_ia16Field]
    exact pixelIs_grey (claims_avg_eq _).symm rfl
  case ia8 =>
    refine (pixelCodec_ia8 cfg).roundTrips fun p i hi _ => ?_
    rw [memRead_packFields_one hi, ia8Pixel_ia8Field, claims_avg_eq]
    exact pixelIs_grey (scale_quantize_four_toNat _) (scale_quantize_four_toNat _)
  case ia4 =>
    refine (pixelCodec_ia4 cfg).roundTrips fun p i hi hgroup => ?_
    rw [nibbleField_packNibbles_of_even _ hi hgroup, ia4Pixel_ia4Field, claims_avg_eq]
    exact pixelIs_grey (scale_quantize_three_toNat _) (expandFlag_opaqueFlag_toNat _)
  case i8 =>
    refine (pixelCodec_i8 cfg).roundTrips fun p i hi _ => ?_
    rw [memRead_packFields_one hi]
    exact pixelIs_grey (claims_avg_eq _).symm (claims_avg_eq _).symm
  case i4 => exact (pixelCodec_i4 cfg).roundTrips_i4 rfl
  case i4Alt => exact (pixelCodec_i4Alt cfg).roundTrips_i4 rfl
  case oneBpp =>
    refine (pixelCodec_oneBpp cfg).roundTrips fun p i hi hgroup => ?_
    have hgroup : p.count % 8 = 0 := hgroup
    rw [bitField_packMask p (by omega)]
    exact pixelIs_grey (expandFlag_maskFlag_toNat _) (expandFlag_maskFlag_toNat _)

/-- Settles O54: ENCODE packs what passes the checks of DECODE, and each row of R154 reads its pixel back. -/
theorem decodeOfEncodePerFormat : Obligations.DecodeOfEncodePerFormat :=
  fun cfg _ _ p out hrow henc => roundTrips_of_mem_roundTrip cfg _ hrow p out henc

/-! ## The helper functions of R14 -/

/-- Settles O23: the model's average and quantizer are the formulas of R14, and the quantizer is the shift by
`quantize_eq_div`. -/
theorem helperFunctionsOfTheSpec : Obligations.HelperFunctionsOfTheSpec := by
  refine ⟨avg_toNat, fun n hn c => ⟨quantize_toNat n c, ?_⟩⟩
  have hq : (quantize n c).toNat = Claims.q n c.toNat := quantize_toNat n c
  obtain ⟨h3, h4, h5⟩ := quantize_eq_div c
  rw [← hq, Nat.shiftRight_eq_div_pow]
  rcases hn with rfl | rfl | rfl
  · exact h3
  · exact h4
  · exact h5

end Sys2Proof.Machine
end

section
/-! What a response depends on: the configuration and the fields that its operation reads, alone
(10_state.md R21, R30). -/

namespace Sys2Proof.Machine

open Sys2Proof.Claims (responseTo)

/-! ## The response of a request -/

/-- The response that a computed result or error is delivered as (10_state.md R23). -/
def Response.ofComputed : Except ErrorReport Result → Response
  | .ok v => .ok v
  | .error e => .error e

@[simp] theorem State.conclude_response (s : State) (res : Except ErrorReport Result) :
    (s.conclude res).response = some (.ofComputed res) := by
  cases res <;> rfl

/-- A well-formed request has one response under a configuration: every state that serves it delivers it. -/
theorem exists_response_of_wellFormed (cfg : Config) {r : Request} (hr : r.wellFormed = true) :
    ∃ resp, ∀ s : State, s.Serves r → s.config = cfg → deliveredBy (step s) = some resp := by
  obtain ⟨res, hres⟩ := step_settles cfg r
  refine ⟨.ofComputed res, ?_⟩
  rintro s ⟨t, ht, hreq, hundisturbed⟩ hcfg
  rw [hres s t ht hreq hcfg, r.missing_eq_none_iff.mpr hr]
  simp [settle, hundisturbed, deliveredBy]

/-- Settles O14: the state at hand and the state that holds the transaction alone both serve the request. -/
theorem responseIsTheOneItWouldHaveAlone : Obligations.ResponseIsTheOneItWouldHaveAlone := by
  intro s t ht hundisturbed hwf
  obtain ⟨resp, hresp⟩ := exists_response_of_wellFormed s.config hwf
  exact ⟨resp, hresp s (State.serves_of_unchanged ht hundisturbed) rfl,
    hresp _ (State.alone_serves s.config t.request) rfl⟩

/-! ## The decoder, by operation -/

theorem Operation.ofSelector_eq_some_iff {op : Byte} {o : Operation} :
    Operation.ofSelector op = some o ↔ op = o.selector := by
  revert op; cases o <;> decide

/-- The operation of a decoded command, of an instruction or of a reserved format (30_encoding.md R65). -/
def decodedOperation : DecodeResult → Option Operation
  | .instr i => some i.operation
  | .illegalOp _ => none
  | .reservedEncodeFormat _ => some .encode
  | .reservedDecodeFormat _ => some .decode

theorem decodedOperation_decodeFields (op fmt : Byte) :
    decodedOperation (decodeFields op fmt) = Operation.ofSelector op := by
  cases hd : decodeFields op fmt with
  | instr i => exact (decodeFields_operation hd).symm
  | illegalOp _ | reservedEncodeFormat _ | reservedDecodeFormat _ =>
    unfold decodeFields at hd
    split at hd
    case h_1 ho | h_2 ho => rw [ho]; split at hd <;> cases hd <;> rfl
    case h_3 | h_4 | h_5 => cases hd
    case h_6 ho => rw [ho]; cases hd <;> rfl

/-- Only the two color-indexed codes decode to the instructions that read the palette (30_encoding.md R64). -/
theorem fmt_of_decodeFields_indexed {op fmt : Byte} {i : Instr} (h : decodeFields op fmt = .instr i)
    (hi : i = .decCi4 ∨ i = .decCi8) : op = 0x02#8 ∧ (fmt = 0x40#8 ∨ fmt = 0x48#8) := by
  have hlookup : ∀ f, decodeInstrs.lookup f = some .decCi4 ∨ decodeInstrs.lookup f = some .decCi8 →
      f = 0x40#8 ∨ f = 0x48#8 := by decide
  have hop : op = 0x02#8 := Operation.ofSelector_eq_some_iff (o := .decode).mp <| by
    rw [decodeFields_operation h]
    rcases hi with rfl | rfl <;> rfl
  subst hop
  refine ⟨rfl, hlookup fmt ?_⟩
  cases hl : decodeInstrs.lookup fmt with
  | none => simp [decodeFields, Operation.ofSelector, hl] at h
  | some j =>
    simp only [decodeFields, Operation.ofSelector, hl] at h
    cases h
    simpa using hi

/-! ## The fields an operation reads -/

/-- A transaction alone is answered by its operands and by what the operation computes of them. -/
theorem deliveredBy_serve_alone {α : Type} (cfg : Config) (r : Request)
    (operands : Request → Except OperandField α) (body : α → Except ErrorReport Result) :
    deliveredBy (serve operands body (State.alone cfg r)) =
      (operands r).toOption.map fun v => .ofComputed (body v) := by
  cases h : operands r with
  | error f => rw [serve_of_missing (State.alone_current cfg r) h]; rfl
  | ok v => rw [serve_of_serves (State.alone_serves cfg r) h]; exact State.conclude_response _ _

section
variable {cfg : Config} {r r' : Request}

/-- What is served with the same operands has the same response. -/
theorem deliveredBy_serve_congr {α : Type} {operands : Request → Except OperandField α}
    {body : α → Except ErrorReport Result} (h : operands r' = operands r) :
    deliveredBy (serve operands body (State.alone cfg r')) =
      deliveredBy (serve operands body (State.alone cfg r)) := by
  rw [deliveredBy_serve_alone, deliveredBy_serve_alone, h]

/-- Two requests agree in the operand fields that an operation reads, the palette left out (10_state.md
R21). -/
def ReadAlike (r r' : Request) : Operation → Prop
  | .encode => r'.pixels = r.pixels
  | .decode => r'.data = r.data ∧ r'.width = r.width ∧ r'.height = r.height
  | .bitsPerPixel => True
  | .nameToCode => r'.name = r.name
  | .codeToName => r'.colorBits = r.colorBits ∧ r'.sizeBits = r.sizeBits

theorem ReadAlike.encodeOperand_eq (h : ReadAlike r r' .encode) : encodeOperand r' = encodeOperand r :=
  congrArg (requireField .pixels) h

theorem ReadAlike.decodeOperands_eq (h : ReadAlike r r' .decode) (hpal : r'.palette = r.palette) :
    decodeOperands r' = decodeOperands r := by
  obtain ⟨hd, hw, hh⟩ := h
  rw [decodeOperands, decodeOperands, hd, hw, hh, hpal]

theorem noOperand_eq (r r' : Request) : noOperand r' = noOperand r := rfl

theorem ReadAlike.nameOperand_eq (h : ReadAlike r r' .nameToCode) : nameOperand r' = nameOperand r :=
  congrArg (requireField .name) h

theorem ReadAlike.codeBitsOperand_eq (h : ReadAlike r r' .codeToName) :
    codeBitsOperand r' = codeBitsOperand r := by
  obtain ⟨hc, hs⟩ := h
  rw [codeBitsOperand, codeBitsOperand, hc, hs]

/-- A DECODE whose body makes nothing of the palette answers alike whatever the palette is (42_decode.md
R140). -/
theorem ReadAlike.deliveredBy_decode_congr (h : ReadAlike r r' .decode)
    {body : DecodeOperands → Except ErrorReport Result}
    (hbody : ∀ o pal, body { o with palette := pal } = body o) :
    deliveredBy (serve decodeOperands body (State.alone cfg r')) =
      deliveredBy (serve decodeOperands body (State.alone cfg r)) := by
  have hoperands : decodeOperands r' =
      (decodeOperands r).map fun o => { o with palette := r'.palette } := by
    obtain ⟨hd, hw, hh⟩ := h
    rw [decodeOperands, decodeOperands, hd, hw, hh]
    cases r.data <;> cases r.width <;> cases r.height <;> rfl
  rw [deliveredBy_serve_alone, deliveredBy_serve_alone, hoperands]
  cases decodeOperands r with
  | error f => rfl
  | ok o => exact congrArg (fun res => some (Response.ofComputed res)) (hbody o r'.palette)

/-- An instruction answers alike to requests that agree in the fields it reads. -/
theorem deliveredBy_exec_congr (i : Instr) (h : ReadAlike r r' i.operation)
    (hpal : i = .decCi4 ∨ i = .decCi8 → r'.palette = r.palette) :
    deliveredBy (exec i (State.alone cfg r')) = deliveredBy (exec i (State.alone cfg r)) := by
  cases i with
  | encOneBpp | encRgba16 | encRgba32 | encIa4 | encIa8 | encIa16 | encI4 | encI4Alt | encI8 | encCi4
  | encCi8 => exact deliveredBy_serve_congr h.encodeOperand_eq
  | decCi4 => exact deliveredBy_serve_congr (h.decodeOperands_eq (hpal (.inl rfl)))
  | decCi8 => exact deliveredBy_serve_congr (h.decodeOperands_eq (hpal (.inr rfl)))
  | decOneBpp | decRgba16 | decRgba32 | decIa4 | decIa8 | decIa16 | decI4 | decI4Alt | decI8 =>
    exact h.deliveredBy_decode_congr fun _ _ => rfl
  | bpp fmt =>
    exact deliveredBy_serve_congr (body := fun _ => .ok (.bits (bpp fmt))) (noOperand_eq r r')
  | n2c _ => exact deliveredBy_serve_congr h.nameOperand_eq
  | c2n _ => exact deliveredBy_serve_congr h.codeBitsOperand_eq

/-- Requests whose commands decode alike have one response where they agree in the fields that are read. -/
theorem responseTo_congr (hdecode : decode r'.cmd = decode r.cmd)
    (h : ∀ o, Operation.ofSelector r.op = some o → ReadAlike r r' o)
    (hpal : r.op = 0x02#8 → (r.fmt = 0x40#8 ∨ r.fmt = 0x48#8) → r'.palette = r.palette) :
    responseTo cfg r' = responseTo cfg r := by
  have hop : decodedOperation (decode r.cmd) = Operation.ofSelector r.op :=
    decodedOperation_decodeFields r.op r.fmt
  rw [responseTo, responseTo, step_of_current (State.alone_current cfg r'),
    step_of_current (State.alone_current cfg r), hdecode]
  cases hi : decode r.cmd with
  | instr i =>
    refine deliveredBy_exec_congr i (h _ (by rw [← hop, hi]; rfl)) fun hindexed => ?_
    obtain ⟨hsel, hfmt⟩ := fmt_of_decodeFields_indexed (op := r.op) (fmt := r.fmt) hi hindexed
    exact hpal hsel hfmt
  | illegalOp op => exact deliveredBy_serve_congr (noOperand_eq r r')
  | reservedEncodeFormat fmt =>
    exact deliveredBy_serve_congr (h .encode (by rw [← hop, hi]; rfl)).encodeOperand_eq
  | reservedDecodeFormat fmt =>
    exact (h .decode (by rw [← hop, hi]; rfl)).deliveredBy_decode_congr fun _ _ => rfl

/-- NAME2CODE reads the name alone, whatever the ignored byte is (30_encoding.md R61). -/
theorem responseTo_nameToCode (hop : r.op = 0x04#8) : responseTo cfg r =
    (nameOperand r).toOption.map fun name => .ok (.code (nameToCode name)) := by
  have hdecode : decode r.cmd = .instr (.n2c r.fmt) := by
    change decodeFields r.op r.fmt = _
    rw [hop]
    rfl
  rw [responseTo, step_of_current (State.alone_current cfg r), hdecode]
  exact deliveredBy_serve_alone cfg r nameOperand _

/-- CODE2NAME reads the two code fields alone, whatever the ignored byte is (30_encoding.md R61). -/
theorem responseTo_codeToName (hop : r.op = 0x05#8) : responseTo cfg r =
    (codeBitsOperand r).toOption.map fun c => .ok (.label (codeToName c.1 c.2)) := by
  have hdecode : decode r.cmd = .instr (.c2n r.fmt) := by
    change decodeFields r.op r.fmt = _
    rw [hop]
    rfl
  rw [responseTo, step_of_current (State.alone_current cfg r), hdecode]
  exact deliveredBy_serve_alone cfg r codeBitsOperand _

end

/-- Settles O15: NAME2CODE and CODE2NAME answer by their operands alone; for every other operation the two
commands decode alike. -/
theorem unreadFieldsAreIgnored : Obligations.UnreadFieldsAreIgnored := by
  intro cfg r r' hop hfmt hpixels hdec hname hbits
  by_cases hn2c : r.op = 0x04#8
  · have hread : ReadAlike r r' .nameToCode := hname hn2c
    rw [responseTo_nameToCode hn2c, responseTo_nameToCode (hop.trans hn2c), hread.nameOperand_eq]
  by_cases hc2n : r.op = 0x05#8
  · have hread : ReadAlike r r' .codeToName := hbits hc2n
    rw [responseTo_codeToName hc2n, responseTo_codeToName (hop.trans hc2n), hread.codeBitsOperand_eq]
  refine responseTo_congr ?_ (fun o ho => ?_) fun h2 hindexed => ?_
  · change decodeFields r'.op r'.fmt = decodeFields r.op r.fmt
    rw [hop]
    by_cases hreads : r.op = 0x01#8 ∨ r.op = 0x02#8 ∨ r.op = 0x03#8
    · rw [hfmt hreads]
    · push Not at hreads
      obtain ⟨h1, h2, h3⟩ := hreads
      have hreserved : Operation.ofSelector r.op = none := by
        simp [Operation.ofSelector, h1, h2, h3, hn2c, hc2n]
      simp only [decodeFields, hreserved]
  · have hsel := Operation.ofSelector_eq_some_iff.mp ho
    cases o with
    | encode => exact hpixels hsel
    | decode =>
      obtain ⟨hd, hw, hh, -⟩ := hdec hsel
      exact ⟨hd, hw, hh⟩
    | bitsPerPixel => trivial
    | nameToCode => exact absurd hsel hn2c
    | codeToName => exact absurd hsel hc2n
  · obtain ⟨-, -, -, hpal⟩ := hdec h2
    exact hpal hindexed

end Sys2Proof.Machine
end

section
/-! The results of ENCODE and DECODE: which codes can answer OK, the number of bytes and of pixels of the
answer; and the reset and idle facts of 10_state.md. -/

namespace Sys2Proof.Machine

open Sys2Proof.Claims (responseTo codes bppTable)

/-! ## Codes with a codec, indexed codes and reserved codes -/

/-- A code of the table of R62 other than the color-indexed ones can be encoded and decoded. -/
theorem exists_pixelCodec (cfg : Config) {fmt : Byte} (hfmt : fmt ∈ codes) (hci4 : fmt ≠ 0x40#8)
    (hci8 : fmt ≠ 0x48#8) : ∃ pack pixel, PixelCodec cfg fmt pack pixel := by
  simp only [codes, List.mem_cons, List.not_mem_nil, or_false, hci4, hci8, false_or] at hfmt
  rcases hfmt with rfl | rfl | rfl | rfl | rfl | rfl | rfl | rfl | rfl
  · exact ⟨_, _, pixelCodec_oneBpp cfg⟩
  · exact ⟨_, _, pixelCodec_rgba16 cfg⟩
  · exact ⟨_, _, pixelCodec_rgba32 cfg⟩
  · exact ⟨_, _, pixelCodec_ia4 cfg⟩
  · exact ⟨_, _, pixelCodec_ia8 cfg⟩
  · exact ⟨_, _, pixelCodec_ia16 cfg⟩
  · exact ⟨_, _, pixelCodec_i4 cfg⟩
  · exact ⟨_, _, pixelCodec_i8 cfg⟩
  · exact ⟨_, _, pixelCodec_i4Alt cfg⟩

theorem decode_reservedEncodeFormat : ∀ fmt : Byte, fmt ∉ codes →
    decode (0x01#8 ++ fmt) = .reservedEncodeFormat fmt := by
  decide

theorem decode_reservedDecodeFormat : ∀ fmt : Byte, fmt ∉ codes →
    decode (0x02#8 ++ fmt) = .reservedDecodeFormat fmt := by
  decide

theorem decode_encCi4 : decode (0x01#8 ++ 0x40#8) = .instr .encCi4 := by decide
theorem decode_encCi8 : decode (0x01#8 ++ 0x48#8) = .instr .encCi8 := by decide
theorem decode_decCi4 : decode (0x02#8 ++ 0x40#8) = .instr .decCi4 := by decide
theorem decode_decCi8 : decode (0x02#8 ++ 0x48#8) = .instr .decCi8 := by decide

theorem bpp_mem_bppTable : ∀ fmt ∈ codes, (fmt, bpp fmt) ∈ bppTable := by
  decide

section
variable {cfg : Config} {fmt : Byte}

/-- ENCODE answers E_UNSUPPORTED_FORMAT to a reserved code and to a color-indexed one (41_encode.md R110,
R120, R121). -/
theorem responseTo_enc_unsupported (p : PixelBuffer)
    (hfmt : fmt ∉ codes ∨ fmt = 0x40#8 ∨ fmt = 0x48#8) :
    responseTo cfg (AsmLine.enc fmt p).request = some (.error (.unsupportedFormat 0x01#8 fmt)) := by
  have hstep : step (State.alone cfg (AsmLine.enc fmt p).request) =
      serveEncodeUnsupported fmt (State.alone cfg (AsmLine.enc fmt p).request) := by
    rw [step_of_current (State.alone_current cfg _)]
    rcases hfmt with hreserved | rfl | rfl
    · have hdecode : decode (AsmLine.enc fmt p).request.cmd = .reservedEncodeFormat fmt :=
        decode_reservedEncodeFormat fmt hreserved
      rw [hdecode]
    · have hdecode : decode (AsmLine.enc 0x40#8 p).request.cmd = .instr .encCi4 := decode_encCi4
      rw [hdecode]
      rfl
    · have hdecode : decode (AsmLine.enc 0x48#8 p).request.cmd = .instr .encCi8 := decode_encCi8
      rw [hdecode]
      rfl
  rw [responseTo, hstep]
  exact deliveredBy_serve_alone cfg _ encodeOperand _

/-- DECODE answers E_UNSUPPORTED_FORMAT to a reserved code (42_decode.md R140). -/
theorem responseTo_dec_reserved (d : List Byte) (w h : Nat) (pal : Option (List Half))
    (hfmt : fmt ∉ codes) : responseTo cfg (AsmLine.dec fmt d w h pal).request =
      some (.error (.unsupportedFormat 0x02#8 fmt)) := by
  have hdecode : decode (AsmLine.dec fmt d w h pal).request.cmd = .reservedDecodeFormat fmt :=
    decode_reservedDecodeFormat fmt hfmt
  rw [responseTo, step_of_current (State.alone_current cfg _), hdecode]
  exact deliveredBy_serve_alone cfg _ decodeOperands _

/-! ## The bytes of an ENCODE -/

/-- Only the codes with a codec encode. -/
theorem exists_pixelCodec_of_responseTo_enc {p : PixelBuffer} {v : Result}
    (h : responseTo cfg (AsmLine.enc fmt p).request = some (.ok v)) :
    fmt ∈ codes ∧ ∃ pack pixel, PixelCodec cfg fmt pack pixel := by
  have hsupported : ¬ (fmt ∉ codes ∨ fmt = 0x40#8 ∨ fmt = 0x48#8) := fun hfmt => by
    rw [responseTo_enc_unsupported p hfmt] at h
    cases h
  push Not at hsupported
  obtain ⟨hfmt, hci4, hci8⟩ := hsupported
  exact ⟨hfmt, exists_pixelCodec cfg hfmt hci4 hci8⟩

/-! ## The pixels of a DECODE -/

theorem unpackIndexed_length {index : List Byte → Nat → Nat} {o : DecodeOperands} {px : List Pixel}
    (h : unpackIndexed fmt index o = .ok px) : px.length = o.count := by
  unfold unpackIndexed at h
  split at h
  · cases h
  · simpa using palLookups_length h

/-- The pictures that a DECODE of the format may answer with OK. -/
def PictureOf (fmt : Byte) (w h : Nat) (v : Result) : Prop :=
  ∃ px : List Pixel, px.length = w * h ∧ v = .picture ⟨w, h, px⟩ ⟨metadataName fmt, w, h⟩

section
variable {d : List Byte} {w h : Nat} {pal : Option (List Half)} {v : Result}

/-- A DECODE by palette lookups answers OK only with the picture of all its pixels (42_decode.md R151). -/
theorem pictureOf_responseTo_dec_indexed {i : Instr} {index : List Byte → Nat → Nat}
    (hdecode : decode (0x02#8 ++ fmt) = .instr i)
    (hexec : exec i = serveDecode fmt (unpackIndexed fmt index))
    (hresp : responseTo cfg (AsmLine.dec fmt d w h pal).request = some (.ok v)) : PictureOf fmt w h v := by
  have hx : decodeOperands (AsmLine.dec fmt d w h pal).request = .ok ⟨d, w, h, pal⟩ :=
    decodeOperands_of rfl rfl rfl
  have hok : decodeBody cfg fmt (unpackIndexed fmt index) ⟨d, w, h, pal⟩ = .ok v :=
    (responseTo_eq_ok_iff (r := (AsmLine.dec fmt d w h pal).request) hdecode (congrFun hexec _) hx).mp hresp
  rcases decodeBody_cases cfg fmt (unpackIndexed fmt index) ⟨d, w, h, pal⟩ with
    ⟨-, hbody⟩ | ⟨-, -, hbody⟩ | ⟨-, -, ⟨e, -, hbody⟩ | ⟨px, hpx, hbody⟩⟩ <;>
    cases hbody.symm.trans hok
  exact ⟨px, unpackIndexed_length hpx, rfl⟩

/-- Whatever DECODE answers with OK is a picture of W * H pixels with the metadata of its code. -/
theorem pictureOf_responseTo_dec
    (hresp : responseTo cfg (AsmLine.dec fmt d w h pal).request = some (.ok v)) : PictureOf fmt w h v := by
  by_cases hfmt : fmt ∈ codes
  · by_cases hci4 : fmt = 0x40#8
    · subst hci4
      exact pictureOf_responseTo_dec_indexed decode_decCi4 rfl hresp
    by_cases hci8 : fmt = 0x48#8
    · subst hci8
      exact pictureOf_responseTo_dec_indexed decode_decCi8 rfl hresp
    obtain ⟨pack, pixel, codec⟩ := exists_pixelCodec cfg hfmt hci4 hci8
    obtain ⟨-, -, hv⟩ := codec.responseTo_dec_iff.mp hresp
    exact ⟨_, by rw [List.length_map, List.length_range], hv⟩
  · rw [responseTo_dec_reserved d w h pal hfmt] at hresp
    cases hresp

end

end

/-- Settles O52: only a code with a codec encodes, and its packed length is that of the table. -/
theorem encodedLengthIsPackedLen : Obligations.EncodedLengthIsPackedLen := by
  intro cfg fmt p out h
  obtain ⟨hfmt, pack, pixel, codec⟩ := exists_pixelCodec_of_responseTo_enc h
  obtain ⟨hgood, -, hout⟩ := codec.responseTo_enc_iff.mp h
  cases hout
  exact ⟨bpp fmt, bpp_mem_bppTable fmt hfmt, codec.packedLength p (group_of_good hgood)⟩

/-- Settles O53: `pictureOf_responseTo_dec`, with `metadataName` the label of R29. -/
theorem decodeResultHoldsItsPixelsAndMetadata : Obligations.DecodeResultHoldsItsPixelsAndMetadata := by
  intro cfg fmt d w h pal px m hresp
  obtain ⟨pixels, hlength, hpicture⟩ := pictureOf_responseTo_dec hresp
  cases hpicture
  exact ⟨rfl, rfl, hlength, rfl, rfl, rfl⟩

/-! ## The machine at reset and between transactions -/

/-- Settles O1. -/
theorem resetHoldsNothingButTheConfiguration : Obligations.ResetHoldsNothingButTheConfiguration :=
  ⟨rfl, rfl, rfl, rfl⟩

/-- Settles O6: with nothing pending there is no current transaction, so nothing is fetched. -/
theorem stepIdlesWithoutATransaction : Obligations.StepIdlesWithoutATransaction := by
  intro s hpending
  have hcurrent : s.current = none := State.current_eq_none_iff.mpr hpending
  simp only [step, State.fetch, hcurrent, Option.map_none, State.idle]

/-- Settles O11: no transaction is in progress. -/
theorem resetStateIsWellFormed : Obligations.ResetStateIsWellFormed := rfl

end Sys2Proof.Machine
end

section
/-! What an instruction leaves of the state (20_memory.md R47, R48), the command word that the host places
(R54, log 10), and a palette given as bytes (R42). -/

namespace Sys2Proof.Machine

/-! ## What an instruction leaves unchanged -/

theorem State.turn_lt_of_current {s : State} {t : Transaction} (h : s.current = some t) :
    s.turn < s.pending.length :=
  State.turn_lt (List.ne_nil_of_mem (State.current_mem h))

theorem State.conclude_eq_answer (s : State) (res : Except ErrorReport Result) :
    s.conclude res = s.answer (.ofComputed res) := by
  cases res <;> rfl

section
variable {i : Instr} {s s' : State} {t : Transaction}

/-- What is settled with a next state is a draw for a transaction with a changed input buffer, or an answer
(70_reset_and_hazards.md R195). -/
theorem settle_next_cases {missing : Option OperandField} {res : Except ErrorReport Result}
    (h : settle missing res t s = .next s') :
    (t.changed ≠ [] ∧ s' = s.draw) ∨ s' = s.answer (.ofComputed res) := by
  cases missing with
  | some field => cases h
  | none =>
    simp only [settle, State.conclude_eq_answer] at h
    split at h
    case isTrue hdisturbed =>
      cases h
      exact .inl ⟨Transaction.disturbed_eq_true_iff.mp hdisturbed, rfl⟩
    case isFalse =>
      cases h
      exact .inr rfl

/-- Everything an instruction can do, with the transaction it does it for. -/
theorem exec_next_cases (h : exec i s = .next s') : ∃ t, s.current = some t ∧
    ((t.changed ≠ [] ∧ s' = s.draw) ∨ ∃ resp, s' = s.answer resp) := by
  obtain ⟨hpending, -⟩ := exec_concludes h
  obtain ⟨t, ht⟩ := Option.ne_none_iff_exists'.mp (mt State.current_eq_none_iff.mp hpending)
  obtain ⟨res, hres⟩ := exec_settles i s.config t.request
  rw [hres s t ht rfl rfl] at h
  exact ⟨t, ht, (settle_next_cases h).imp_right fun hs' => ⟨_, hs'⟩⟩

/-- An instruction answers a next state where the request has the operands of its operation. -/
theorem exists_exec_next (ht : s.current = some t) (hfields : t.request.lacks i.operation = none) :
    ∃ s', exec i s = .next s' := by
  obtain ⟨res, hres⟩ := exec_settles i s.config t.request
  rw [hres s t ht rfl rfl, hfields]
  cases hd : t.disturbed <;> simp [settle, hd]

end

/-- Settles O2: an answer and a draw both take the transaction that is next out of `pending`, and they
differ in the response and in `draws` alone. -/
theorem instructionFrame : Obligations.InstructionFrame := by
  intro i s s' h
  obtain ⟨t, ht, hcases⟩ := exec_next_cases h
  have hpending : s.pending.eraseIdx s.turn = s.pending.take s.turn ++ s.pending.drop (s.turn + 1) :=
    List.eraseIdx_eq_take_drop_succ ..
  obtain ⟨hchanged, rfl⟩ | ⟨resp, rfl⟩ := hcases
  · exact ⟨State.turn_lt_of_current ht, hpending, rfl, rfl, rfl, .inr ⟨rfl, t, ht, hchanged⟩⟩
  · exact ⟨State.turn_lt_of_current ht, hpending, rfl, rfl, rfl, .inl rfl⟩

/-! ## The command word that the host places -/

/-- The decoder reads back the two bytes that the encoder joins (30_encoding.md R60). -/
theorem decode_encode (i : Instr) : decode (encode i) = .instr i := by
  have hfields : decode (encode i) = decodeFields (encodeFields i).1 (encodeFields i).2 := by
    rw [decode, encode, extract_append_high, extract_append_low]
  rw [hfields]
  cases i <;> rfl

/-- A placed command has every operand field (60_exceptions.md R171). -/
theorem Request.withCommand_lacks (r : Request) (cmd : Half) (o : Operation) :
    (r.withCommand cmd).lacks o = none := by
  cases o <;> rfl

/-- Replacing a transaction in progress leaves the turn. -/
theorem State.turn_set (s : State) (k : Nat) (t : Transaction) :
    ({ s with pending := s.pending.set k t } : State).turn = s.turn := by
  simp only [State.turn, List.length_set]

/-- The placed command is that of the transaction answered next. -/
theorem State.exists_withCommand_current (s : State) (cmd : Half) :
    ∃ t r, (s.withCommand cmd).current = some t ∧ t.request = Request.withCommand r cmd := by
  unfold State.withCommand
  split
  case h_1 t ht =>
    refine ⟨{ t with request := t.request.withCommand cmd }, t.request, ?_, rfl⟩
    rw [State.current, State.turn_set]
    exact List.getElem?_set_self (State.turn_lt_of_current ht)
  case h_2 => exact ⟨_, Request.blank cmd, State.current_singleton rfl, rfl⟩

/-- A 16-bit word is placed as it is (30_encoding.md R66). -/
theorem State.withFetchWord_toNat (s : State) (cmd : Half) :
    s.withFetchWord 16 cmd.toNat = s.withCommand cmd := by
  rw [State.withFetchWord, Nat.mod_eq_of_lt cmd.isLt, BitVec.ofNat_toNat, BitVec.setWidth_eq]

/-- Settles O21: the placed word is the current command, decodes to its instruction, and has the operands
that the instruction reads. -/
theorem placedCommandRunsNext : Obligations.PlacedCommandRunsNext := by
  intro s i
  rw [State.withFetchWord_toNat]
  obtain ⟨t, r, ht, hrequest⟩ := s.exists_withCommand_current (encode i)
  have hdecode : decode t.request.cmd = .instr i := by rw [hrequest]; exact decode_encode i
  have hstep : step (s.withCommand (encode i)) = exec i (s.withCommand (encode i)) := by
    rw [step_of_current ht, hdecode]
  obtain ⟨s', hs'⟩ := exists_exec_next (i := i) ht (hrequest ▸ r.withCommand_lacks (encode i) i.operation)
  exact ⟨by rw [State.fetch, ht, Option.map_some, hdecode], s.withCommand_config _, s',
    hstep.trans hs', hs'⟩

/-! ## A palette given as bytes -/

theorem paletteOfBytes_length : ∀ bs : List Byte, (paletteOfBytes bs).length = bs.length / 2
  | [] => rfl
  | [_] => by simp [paletteOfBytes]
  | _ :: _ :: rest => by
    simp only [paletteOfBytes, List.length_cons, paletteOfBytes_length rest]
    omega

/-- Entry k joins bytes 2k and 2k + 1, the first of them in the high bits (20_memory.md R42). -/
theorem paletteOfBytes_getElem?_eq_some {e : Half} : ∀ {bs : List Byte} {k : Nat},
    (paletteOfBytes bs)[k]? = some e →
      ∃ hi lo, bs[2 * k]? = some hi ∧ bs[2 * k + 1]? = some lo ∧ e = hi ++ lo
  | [], _, h | [_], _, h => nomatch h
  | hi :: lo :: _, 0, h => ⟨hi, lo, rfl, rfl, (Option.some.inj h).symm⟩
  | _ :: _ :: rest, k + 1, h => paletteOfBytes_getElem?_eq_some (bs := rest) (k := k) h

/-- Settles O25: `paletteOfBytes_getElem?_eq_some`, with the value of two joined bytes. -/
theorem paletteBytesAreBigEndianEntries : Obligations.PaletteBytesAreBigEndianEntries := by
  refine fun bs => ⟨paletteOfBytes_length bs, fun k e he => ?_⟩
  obtain ⟨hi, lo, hhi, hlo, rfl⟩ := paletteOfBytes_getElem?_eq_some he
  exact ⟨hi, lo, hhi, hlo, (append_toNat hi lo).symm⟩

end Sys2Proof.Machine
end

section
/-! The command decoder as the inverse of the encoder, the command words it rejects (30_encoding.md R60 to
R66), what a step answers to them (R65), and the pseudo-instructions (R67). -/

namespace Sys2Proof.Machine

open Sys2Proof.Claims (responseTo codes names Folds CodeOf)

/-! ## Command words as two bytes -/

/-- A command word is its selector and its low byte (30_encoding.md R60). -/
theorem exists_eq_append (w : Half) : ∃ op fmt : Byte, w = op ++ fmt :=
  ⟨_, _, (append_extract (m := 8) (n := 8) w).symm⟩

theorem decode_append (op fmt : Byte) : decode (op ++ fmt) = decodeFields op fmt := by
  rw [decode, extract_append_high, extract_append_low]

theorem append_toNat_div (op fmt : Byte) : (op ++ fmt).toNat / 256 = op.toNat := by
  have hw : (op ++ fmt).toNat = op.toNat * 256 + fmt.toNat := append_toNat op fmt
  have := fmt.isLt
  omega

theorem append_toNat_eq_iff {op fmt op' fmt' : Byte} :
    (op ++ fmt).toNat = op'.toNat * 256 + fmt'.toNat ↔ op = op' ∧ fmt = fmt' := by
  have hw : (op ++ fmt).toNat = op.toNat * 256 + fmt.toNat := append_toNat op fmt
  have := fmt.isLt
  have := fmt'.isLt
  rw [hw, ← BitVec.toNat_inj, ← BitVec.toNat_inj]
  omega

/-! ## The tables by format code -/

section
variable {β : Type} {fmt : Byte} {v : β} {table : List (Byte × β)}

theorem mem_of_lookup_eq_some {α : Type} [BEq α] [LawfulBEq α] {table : List (α × β)} {k : α}
    (h : table.lookup k = some v) : (k, v) ∈ table := by
  obtain ⟨before, after, rfl, -⟩ := List.lookup_eq_some_iff.mp h
  exact List.mem_append_right _ List.mem_cons_self

/-- A table that lists exactly the eleven codes of 30_encoding.md R62 misses exactly the reserved ones. -/
theorem lookup_eq_none_iff_notMem_codes (hkeys : table.map Prod.fst = codes) :
    table.lookup fmt = none ↔ fmt ∉ codes := by
  simp only [List.lookup_eq_none_iff, ← hkeys, bne_iff_ne, List.mem_map, not_exists, not_and]
  exact forall₂_congr fun _ _ => ne_comm

end

theorem encodeFields_of_mem_encodeInstrs : ∀ e ∈ encodeInstrs, encodeFields e.2 = (0x01#8, e.1) := by
  decide

theorem encodeFields_of_mem_decodeInstrs : ∀ e ∈ decodeInstrs, encodeFields e.2 = (0x02#8, e.1) := by
  decide

theorem formatOfCode_eq_none {fmt : Byte} (h : fmt ∉ codes) : formatOfCode fmt = none :=
  (lookup_eq_none_iff_notMem_codes rfl).mpr h

theorem bpp_of_notMem_codes {fmt : Byte} (h : fmt ∉ codes) : bpp fmt = 16 := by
  rw [bpp, formatOfCode_eq_none h]

/-! ## Everything the decoder answers -/

/-- The selectors 0x01 to 0x05 are the operations; every other one is reserved (30_encoding.md R61). -/
theorem Operation.ofSelector_eq_none_iff {op : Byte} :
    Operation.ofSelector op = none ↔ op.toNat = 0 ∨ 6 ≤ op.toNat := by
  revert op; decide

/-- The two bytes of the commands that R64 and R65 give the result to, read from the encoder's table. -/
def FieldsOf (op fmt : Byte) : DecodeResult → Prop
  | .instr i => encodeFields i = (op, fmt)
  | .illegalOp x => op = x ∧ (x.toNat = 0 ∨ 6 ≤ x.toNat)
  | .reservedEncodeFormat f => (op = 0x01#8 ∧ fmt = f) ∧ f ∉ codes
  | .reservedDecodeFormat f => (op = 0x02#8 ∧ fmt = f) ∧ f ∉ codes

theorem fieldsOf_decodeFields (op fmt : Byte) : FieldsOf op fmt (decodeFields op fmt) := by
  cases ho : Operation.ofSelector op with
  | none =>
    simp only [decodeFields, ho]
    exact ⟨rfl, Operation.ofSelector_eq_none_iff.mp ho⟩
  | some o =>
    obtain rfl := Operation.ofSelector_eq_some_iff.mp ho
    cases o with
    | encode =>
      cases hl : encodeInstrs.lookup fmt with
      | some i =>
        simp only [decodeFields, ho, hl]
        exact encodeFields_of_mem_encodeInstrs _ (mem_of_lookup_eq_some hl)
      | none =>
        simp only [decodeFields, ho, hl]
        exact ⟨⟨rfl, rfl⟩, (lookup_eq_none_iff_notMem_codes rfl).mp hl⟩
    | decode =>
      cases hl : decodeInstrs.lookup fmt with
      | some i =>
        simp only [decodeFields, ho, hl]
        exact encodeFields_of_mem_decodeInstrs _ (mem_of_lookup_eq_some hl)
      | none =>
        simp only [decodeFields, ho, hl]
        exact ⟨⟨rfl, rfl⟩, (lookup_eq_none_iff_notMem_codes rfl).mp hl⟩
    | bitsPerPixel | nameToCode | codeToName => rfl

theorem decode_illegalOp {op : Byte} (fmt : Byte) (hop : op.toNat = 0 ∨ 6 ≤ op.toNat) :
    decode (op ++ fmt) = .illegalOp op := by
  rw [decode_append]
  simp only [decodeFields, Operation.ofSelector_eq_none_iff.mpr hop]

/-- The decoder gives each result to exactly the commands whose two bytes are its `FieldsOf`. -/
theorem decode_append_eq_iff {op fmt : Byte} {x : DecodeResult} :
    decode (op ++ fmt) = x ↔ FieldsOf op fmt x := by
  constructor
  · rintro rfl
    rw [decode_append]
    exact fieldsOf_decodeFields op fmt
  · intro h
    cases x with
    | instr i =>
      have hfields : encodeFields i = (op, fmt) := h
      have hencode : encode i = op ++ fmt := by rw [encode, hfields]
      exact hencode ▸ decode_encode i
    | illegalOp x =>
      obtain ⟨rfl, hop⟩ := h
      exact decode_illegalOp fmt hop
    | reservedEncodeFormat f =>
      obtain ⟨⟨rfl, rfl⟩, hf⟩ := h
      exact decode_reservedEncodeFormat fmt hf
    | reservedDecodeFormat f =>
      obtain ⟨⟨rfl, rfl⟩, hf⟩ := h
      exact decode_reservedDecodeFormat fmt hf

/-- Settles O18: `decode_encode` is one direction; for the other, an instruction comes from its own two bytes
alone. -/
theorem decodeAcceptsExactlyTheEncodings : Obligations.DecodeAcceptsExactlyTheEncodings := by
  refine fun w i => ⟨fun h => ?_, fun h => h ▸ decode_encode i⟩
  obtain ⟨op, fmt, rfl⟩ := exists_eq_append w
  have hfields : encodeFields i = (op, fmt) := decode_append_eq_iff.mp h
  rw [encode, hfields]

/-- Settles O19: the fields of the three rejections, with a word as the number of its two bytes. -/
theorem reservedWordsAreRejectedByName : Obligations.ReservedWordsAreRejectedByName := by
  intro w
  obtain ⟨op, fmt, rfl⟩ := exists_eq_append w
  refine ⟨fun x => ?_, fun f => ?_, fun f => ?_⟩
  · rw [decode_append_eq_iff, append_toNat_div, BitVec.toNat_inj, eq_comm (a := x)]
    rfl
  · exact decode_append_eq_iff.trans (and_congr_left' append_toNat_eq_iff.symm)
  · exact decode_append_eq_iff.trans (and_congr_left' append_toNat_eq_iff.symm)

/-- Settles O20: each word is the encoding of its instruction. -/
theorem tableWordsDecodeToTheirInstruction : Obligations.TableWordsDecodeToTheirInstruction :=
  ⟨decode_encode .encRgba16, decode_encode .decIa4, decode_encode (.bpp 0x90#8),
    decode_encode (.n2c 0xAB#8), decode_encode (.c2n 0xFF#8)⟩

/-- Settles O30: the two lists are computed, and a code outside the table has no format. -/
theorem formatCodesOfTheCatalog : Obligations.FormatCodesOfTheCatalog :=
  ⟨rfl, fun _ => formatOfCode_eq_none, rfl⟩

/-! ## What a step answers -/

theorem State.Serves.fetch {s : State} {r : Request} (h : s.Serves r) :
    s.fetch = some (decode (r.op ++ r.fmt)) := by
  obtain ⟨t, ht, rfl, -⟩ := h
  rw [State.fetch, ht, Option.map_some, decode_append]
  rfl

/-- Settles O7: each command decodes to its rejection, or to BPP, which is served with its operands. -/
theorem reservedCommandsAnswerTheirError : Obligations.ReservedCommandsAnswerTheirError := by
  refine fun s r => ⟨fun hs hop => ?_, fun hs hop hp hfmt => ?_, fun hs hop hd hw hh hfmt => ?_,
    fun hs hop hfmt => ?_⟩
  · have hreserved : r.op.toNat = 0 ∨ 6 ≤ r.op.toNat := hop.imp_left (congrArg BitVec.toNat)
    rw [step, hs.fetch, decode_illegalOp r.fmt hreserved]
    exact serve_of_serves hs rfl
  · obtain ⟨p, hp⟩ := Option.isSome_iff_exists.mp hp
    rw [step, hs.fetch, hop, decode_reservedEncodeFormat r.fmt hfmt]
    exact serve_of_serves hs (encodeOperand_of hp)
  · obtain ⟨d, hd⟩ := Option.isSome_iff_exists.mp hd
    obtain ⟨w, hw⟩ := Option.isSome_iff_exists.mp hw
    obtain ⟨h, hh⟩ := Option.isSome_iff_exists.mp hh
    rw [step, hs.fetch, hop, decode_reservedDecodeFormat r.fmt hfmt]
    exact serve_of_serves hs (decodeOperands_of hd hw hh)
  · have hdecode : decode (0x03#8 ++ r.fmt) = .instr (.bpp r.fmt) := decode_encode (.bpp r.fmt)
    rw [step, hs.fetch, hop, hdecode, ← bpp_of_notMem_codes hfmt]
    exact serve_of_serves (operands := noOperand) (body := fun _ => .ok (.bits (bpp r.fmt))) hs rfl

/-- Settles O5. -/
theorem stepRunsTheDecodedInstruction : Obligations.StepRunsTheDecodedInstruction := by
  intro s t i ht hdecode
  rw [step_of_current ht, hdecode]

/-! ## Names and pseudo-instructions -/

/-- The model's name table is that of R102, with a name as the list of its characters. -/
theorem nameTable_eq : nameTable = names.map fun e => (e.1.toList, e.2) := by decide

/-- `fold` is the folding of R102. -/
theorem folds_fold (name : Text) : Folds name (fold name) :=
  List.forall₂_map_right_iff.mpr (List.forall₂_same.mpr fun c _ => foldChar_toNat c)

theorem nameTable_lookup_eq_some {t : Text} {c : Byte} (h : nameTable.lookup t = some c) :
    ∃ n, (n, c) ∈ names ∧ n.toList = t := by
  have hmem := mem_of_lookup_eq_some h
  rw [nameTable_eq, List.mem_map] at hmem
  obtain ⟨⟨n, code⟩, hn, heq⟩ := hmem
  obtain ⟨hname, rfl⟩ := Prod.mk.inj heq
  exact ⟨n, hn, hname⟩

theorem nameTable_lookup_eq_none_iff {t : Text} :
    nameTable.lookup t = none ↔ ∀ e ∈ names, e.1.toList ≠ t := by
  simp only [nameTable_eq, List.lookup_eq_none_iff, List.forall_mem_map, bne_iff_ne]
  exact forall₂_congr fun _ _ => ne_comm

/-- A name that folds to none of the table has the code 0x10 (40_catalog.md R102). -/
theorem nameToCode_of_unknown {name : Text} (h : ∀ e ∈ names, e.1.toList ≠ fold name) :
    nameToCode name = 0x10#8 := by
  rw [nameToCode, nameTable_lookup_eq_none_iff.mpr h]

/-- The model's code of a name is the one of R102. -/
theorem codeOf_nameToCode (name : Text) : CodeOf name (nameToCode name) := by
  refine ⟨fold name, folds_fold name, ?_⟩
  cases hl : nameTable.lookup (fold name) with
  | some c =>
    have hcode : nameToCode name = c := by rw [nameToCode, hl]
    exact .inl (hcode ▸ nameTable_lookup_eq_some hl)
  | none =>
    have hunknown := nameTable_lookup_eq_none_iff.mp hl
    exact .inr ⟨hunknown, nameToCode_of_unknown hunknown⟩

/-- Settles O22: the code is `nameToCode` of the name, and each second line joins its selector to it. -/
theorem pseudoInstructionExpandsThroughItsName : Obligations.PseudoInstructionExpandsThroughItsName := by
  intro cfg name p d w h pal
  have hresponse : responseTo cfg (AsmLine.n2c name).request = some (.ok (.code (nameToCode name))) :=
    responseTo_nameToCode (r := (AsmLine.n2c name).request) (extract_append_high 0x04#8 0x00#8)
  have hunknown : (∀ t, Folds name t → ∀ e ∈ names, e.1.toList ≠ t) →
      decode (AsmLine.enc (nameToCode name) p).request.cmd = .instr .encRgba16 := fun hnone => by
    rw [nameToCode_of_unknown (hnone _ (folds_fold name))]
    exact decode_encode .encRgba16
  have hop : ∀ op c : Byte, (op ++ c).extractLsb' 8 8 = op := extract_append_high
  have hfmt : ∀ op c : Byte, (op ++ c).extractLsb' 0 8 = c := extract_append_low
  exact ⟨rfl, rfl, rfl, nameToCode name, codeOf_nameToCode name, hresponse, rfl, rfl, rfl,
    hop 0x01#8 _, hfmt 0x01#8 _, hop 0x02#8 _, hfmt 0x02#8 _, hop 0x03#8 _, hfmt 0x03#8 _,
    rfl, rfl, rfl, rfl, rfl, hunknown⟩

end Sys2Proof.Machine
end

section
/-! The instructions of the catalog, BPP, N2C and C2N (40_catalog.md R101, R103, R105), and the laws that its
tables obey (R106). -/

namespace Sys2Proof.Machine

open Sys2Proof.Claims (Answers codes bppTable)

/-! ## What each instruction answers -/

section
variable {s : State} {r : Request}

theorem bpp_answers (hs : s.Serves r) (fmt : Byte) : Answers (.bpp fmt) s (.ok (.bits (bpp fmt))) :=
  serve_of_serves (operands := noOperand) (body := fun _ => .ok (.bits (bpp fmt))) hs rfl

theorem n2c_answers (hs : s.Serves r) {name : Text} (hname : r.name = some name) (x : Byte) :
    Answers (.n2c x) s (.ok (.code (nameToCode name))) :=
  serve_of_serves hs (nameOperand_of hname)

theorem c2n_answers (hs : s.Serves r) {c z : Byte} (hc : r.colorBits = some c) (hz : r.sizeBits = some z)
    (x : Byte) : Answers (.c2n x) s (.ok (.label (codeToName c z))) :=
  serve_of_serves hs (codeBitsOperand_of hc hz)

end

/-! ## The table of bits per pixel -/

/-- The model's `bpp` is the table of R100 with its default. -/
theorem bpp_table_or_default (fmt : Byte) :
    (fmt, bpp fmt) ∈ bppTable ∨ (fmt ∉ codes ∧ bpp fmt = 16) := by
  by_cases hfmt : fmt ∈ codes
  · exact .inl (bpp_mem_bppTable fmt hfmt)
  · exact .inr ⟨hfmt, bpp_of_notMem_codes hfmt⟩

/-! ## The lists of color models and sizes -/

/-- The label of a model number is its entry in the list of color models (R104). -/
theorem colorModel_label_ofNumber : ∀ m : BitVec 3, ∃ model,
    ["RGBA", "YUV", "CI", "IA", "I", "Unknown", "Unknown", "Unknown"][m.toNat]? = some model ∧
      (ColorModel.ofNumber m).label = model.toList := by
  decide

/-- The label of a size number is its entry in the list of sizes (R104). -/
theorem sizeLabel_entry : ∀ m : BitVec 2, ∃ size,
    ["4", "8", "16", "32"][m.toNat]? = some size ∧ sizeLabel m = size.toList := by
  decide

/-- `codeToName` reads three bits of its first byte and two of its second (R104). -/
theorem codeToName_reads (c z : Byte) : ∃ model size,
    ["RGBA", "YUV", "CI", "IA", "I", "Unknown", "Unknown", "Unknown"][c.toNat % 8]? = some model ∧
      ["4", "8", "16", "32"][z.toNat % 4]? = some size ∧
      codeToName c z = model.toList ++ size.toList := by
  have hc : (c.extractLsb' 0 3).toNat = c.toNat % 8 := BitVec.extractLsb'_toNat 0 3 c
  have hz : (z.extractLsb' 0 2).toNat = z.toNat % 4 := BitVec.extractLsb'_toNat 0 2 z
  obtain ⟨model, hmodel, hlabel⟩ := colorModel_label_ofNumber (c.extractLsb' 0 3)
  obtain ⟨size, hsize, hsizeLabel⟩ := sizeLabel_entry (z.extractLsb' 0 2)
  exact ⟨model, size, hc ▸ hmodel, hz ▸ hsize, by rw [codeToName, hlabel, hsizeLabel]⟩

/-! ## The statements -/

/-- Settles O26: BPP answers `bpp fmt`, which is the table with its default. -/
theorem bppAnswersTheTableOrSixteen : Obligations.BppAnswersTheTableOrSixteen := fun fmt _ _ hs =>
  ⟨decode_encode (.bpp fmt), bpp fmt, bpp_answers hs fmt, bpp_table_or_default fmt⟩

/-- Settles O27: N2C answers `nameToCode name`, which is the code of R102. -/
theorem nameToCodeFoldsAndDefaults : Obligations.NameToCodeFoldsAndDefaults := fun x _ _ name hs hname =>
  ⟨decode_encode (.n2c x), nameToCode name, n2c_answers hs hname x, codeOf_nameToCode name⟩

/-- Settles O28: C2N answers `codeToName c z`, the two entries of the lists of R104 joined. -/
theorem codeToNameReadsThreeAndTwoBits : Obligations.CodeToNameReadsThreeAndTwoBits := by
  intro x s r c z hs hc hz
  obtain ⟨model, size, hmodel, hsize, hname⟩ := codeToName_reads c z
  exact ⟨decode_encode (.c2n x), model, size, hmodel, hsize, hname ▸ c2n_answers hs hc hz x⟩

/-- Settles O29: the eleven codes and the ten names are computed. -/
theorem labelsNameTheirCode : Obligations.LabelsNameTheirCode :=
  ⟨by decide, by decide, by decide⟩

end Sys2Proof.Machine
end

section
/-! The second law of 42_decode.md R154: the bytes that DECODE read are those that ENCODE writes for its
picture. -/

namespace Sys2Proof.Machine

open Sys2Proof.Claims (responseTo codes)

/-! ## Fields that are read back from the byte space -/

/-- A mask byte is the byte whose bit 7 - k is the flag of its pixel k (30_encoding.md R68). -/
theorem maskByte_eq_of_extract {px : Nat → Pixel} {b : Byte}
    (h : ∀ k < 8, maskFlag (px k).a = b.extractLsb' (7 - k) 1) : maskByte px = b := by
  apply BitVec.eq_of_getLsbD_eq
  intro i hi
  have hbit : (maskByte px).extractLsb' i 1 = b.extractLsb' i 1 := by
    rw [show i = 7 - (7 - i) by omega, maskByte_extract px (by omega), h _ (by omega)]
  simpa using congrArg (·.getLsbD 0) hbit

/-- The bits of byte j are the fields of pixels 8j to 8j + 7 (20_memory.md R43). -/
theorem bitField_group (d : List Byte) (j : Nat) {k : Nat} (hk : k < 8) :
    bitField d (8 * j + k) = (byteAt d j).extractLsb' (7 - k) 1 := by
  rw [bitField, show (8 * j + k) / 8 = j by omega, show (8 * j + k) % 8 = k by omega]

/-- The nibbles of a byte, joined in pixel order, are the byte (20_memory.md R43). -/
theorem nibbleField_append (d : List Byte) (j : Nat) :
    nibbleField d (2 * j) ++ nibbleField d (2 * j + 1) = byteAt d j := by
  obtain ⟨hhigh, hlow⟩ := nibbleField_pair d j
  rw [hhigh, hlow]
  exact append_extract (m := 4) (n := 4) _

/-- Byte k of a big-endian pair (20_memory.md R41). -/
theorem memRead_two_extract (d : List Byte) (a : Nat) :
    ∀ k < 2, (memRead d a 2).extractLsb' (8 * (2 - 1 - k)) 8 = byteAt d (a + k)
  | 0, _ => by rw [memRead_two]; exact extract_append_high _ _
  | 1, _ => by rw [memRead_two]; exact extract_append_low _ _

/-- The field of the RGBA32 pixel at an offset has its four bytes (30_encoding.md R71). -/
theorem rgba32Field_rgba32Pixel_extract (d : List Byte) (a : Nat) :
    ∀ k < 4, (rgba32Field (rgba32Pixel d a)).extractLsb' (8 * (4 - 1 - k)) 8 = byteAt d (a + k) := by
  simp only [rgba32Field, rgba32Pixel, memRead_one]
  obtain ⟨hr, hg, hb, ha⟩ :=
    rgba32_fields (byteAt d a) (byteAt d (a + 1)) (byteAt d (a + 2)) (byteAt d (a + 3))
  intro k hk
  interval_cases k
  exacts [hr, hg, hb, ha]

/-- A byte list that agrees with the byte space of the data is the data (20_memory.md R40). -/
theorem eq_of_getElem?_eq_byteAt {d out : List Byte} (hlen : out.length = d.length)
    (h : ∀ j < d.length, out[j]? = some (byteAt d j)) : out = d := by
  refine List.ext_getElem? fun j => ?_
  by_cases hj : j < d.length
  · rw [h j hj, getElem?_byteAt hj]
  · rw [List.getElem?_eq_none (by omega), List.getElem?_eq_none (by omega)]

/-! ## Packing a decoded picture -/

/-- The picture that a DECODE pixel by pixel makes of its data. -/
def decodedPicture (pixel : List Byte → Nat → Pixel) (d : List Byte) (w h : Nat) : PixelBuffer :=
  ⟨w, h, (List.range (w * h)).map (pixel d)⟩

section
variable {pixel : List Byte → Nat → Pixel} {d : List Byte} {w h : Nat}

theorem decodedPicture_count : (decodedPicture pixel d w h).count = w * h := rfl

theorem decodedPicture_length : (decodedPicture pixel d w h).pixels.length = w * h := by
  rw [decodedPicture, List.length_map, List.length_range]

theorem decodedPicture_pix {i : Nat} (hi : i < w * h) : (decodedPicture pixel d w h).pix i = pixel d i :=
  PixelBuffer.pix_of (by simp [decodedPicture, hi])

/-- Fields of whole bytes restore the data where each byte of a field does. -/
theorem packFields_decodedPicture {n : Nat} {field : Pixel → BitVec (8 * n)} (hlen : d.length = n * (w * h))
    (hbyte : ∀ i, ∀ k < n, (field (pixel d i)).extractLsb' (8 * (n - 1 - k)) 8 = byteAt d (n * i + k)) :
    packFields n field (decodedPicture pixel d w h) = d := by
  refine eq_of_getElem?_eq_byteAt (by rw [packFields_length, decodedPicture_count, hlen]) fun j hj => ?_
  rw [hlen] at hj
  have hn : 0 < n := Nat.pos_of_mul_pos_right (Nat.zero_lt_of_lt hj)
  have hi : j / n < w * h := Nat.div_lt_of_lt_mul hj
  have hk : j % n < n := Nat.mod_lt j hn
  have hfield := packFields_getElem? field (decodedPicture pixel d w h) hi hk
  rwa [decodedPicture_pix hi, hbyte _ _ hk, Nat.div_add_mod] at hfield

/-- One byte a pixel restores the data where it is the byte of the pixel. -/
theorem packFields_one_decodedPicture {field : Pixel → Byte} {read : Byte → Pixel}
    (hlen : d.length = w * h) (hread : ∀ b, field (read b) = b) :
    packFields 1 field (decodedPicture (fun d i => read (memRead d i 1)) d w h) = d := by
  refine packFields_decodedPicture (by rw [hlen, Nat.one_mul]) fun i k hk => ?_
  obtain rfl : k = 0 := by omega
  simp only [hread, memRead_one, Nat.one_mul, Nat.add_zero]
  exact BitVec.extractLsb'_eq_self

/-- Two bytes a pixel restore the data where they are the big-endian value of the pixel. -/
theorem packFields_two_decodedPicture {field : Pixel → Half} {read : Half → Pixel}
    (hlen : d.length = 2 * (w * h)) (hread : ∀ v, field (read v) = v) :
    packFields 2 field (decodedPicture (fun d i => read (memRead d (2 * i) 2)) d w h) = d := by
  refine packFields_decodedPicture hlen fun i k hk => ?_
  rw [hread]
  exact memRead_two_extract d (2 * i) k hk

/-- Nibbles restore the data of whole bytes where each is the nibble of its pixel. -/
theorem packNibbles_decodedPicture {field : Pixel → BitVec 4} {read : BitVec 4 → Pixel}
    (hlen : 2 * d.length = w * h) (hread : ∀ n, field (read n) = n) :
    packNibbles field (decodedPicture (fun d i => read (nibbleField d i)) d w h) = d := by
  have hcount : w * h / 2 = d.length := by omega
  refine eq_of_getElem?_eq_byteAt (by rw [packNibbles_length, decodedPicture_count, hcount]) fun j hj => ?_
  rw [packNibbles_getElem? field _ (by rw [decodedPicture_count, hcount]; exact hj),
    decodedPicture_pix (by omega), decodedPicture_pix (by omega), hread, hread, nibbleField_append]

/-- The mask restores the data of whole bytes: an expanded bit flags itself. -/
theorem packMask_decodedPicture (hlen : 8 * d.length = w * h) :
    packMask (decodedPicture (fun d i => maskPixel (bitField d i)) d w h) = d := by
  have hcount : w * h / 8 = d.length := by omega
  refine eq_of_getElem?_eq_byteAt (by rw [packMask_length, decodedPicture_count, hcount]) fun j hj => ?_
  rw [packMask_getElem? _ (by rw [decodedPicture_count, hcount]; exact hj)]
  refine congrArg some (maskByte_eq_of_extract fun k hk => ?_)
  rw [decodedPicture_pix (by omega), bitField_group d j hk]
  exact maskFlag_expandFlag _

end

/-! ## The data of a DECODE -/

/-- The picture of a DECODE encodes to the data that was decoded. -/
def Restores (cfg : Config) (fmt : Byte) : Prop :=
  ∀ (d : List Byte) (w h : Nat) (px : PixelBuffer) (m : Metadata),
    responseTo cfg (AsmLine.dec fmt d w h none).request = some (.ok (.picture px m)) →
    responseTo cfg (AsmLine.enc fmt px).request = some (.ok (.bytes d))

section
variable {cfg : Config} {fmt : Byte} {pack : PixelBuffer → List Byte} {pixel : List Byte → Nat → Pixel}

/-- A decoded picture passes the checks of ENCODE, so it is enough that its packing restores the data, of
`bpp` bits a pixel and of whole pixel groups. -/
theorem PixelCodec.restores (c : PixelCodec cfg fmt pack pixel)
    (hpack : ∀ (d : List Byte) (w h : Nat), w * h % groupSize fmt = 0 →
      d.length = (w * h * bpp fmt + 7) / 8 → pack (decodedPicture pixel d w h) = d) :
    Restores cfg fmt := by
  intro d w h px m hdec
  obtain ⟨hgood, hlen, hpicture⟩ := c.responseTo_dec_iff.mp hdec
  obtain ⟨rfl, -⟩ := Result.picture.inj hpicture
  have hdata := hpack d w h (group_of_good hgood) hlen
  exact c.responseTo_enc_iff.mpr ⟨hgood, decodedPicture_length, congrArg Result.bytes hdata.symm⟩

theorem PixelCodec.restores_of_one_byte {field : Pixel → Byte} {read : Byte → Pixel}
    (c : PixelCodec cfg fmt (packFields 1 field) fun d i => read (memRead d i 1)) (hb : bpp fmt = 8)
    (hread : ∀ b, field (read b) = b) : Restores cfg fmt :=
  c.restores fun _ _ _ _ hlen => packFields_one_decodedPicture (by rw [hlen, hb]; omega) hread

theorem PixelCodec.restores_of_two_bytes {field : Pixel → Half} {read : Half → Pixel}
    (c : PixelCodec cfg fmt (packFields 2 field) fun d i => read (memRead d (2 * i) 2)) (hb : bpp fmt = 16)
    (hread : ∀ v, field (read v) = v) : Restores cfg fmt :=
  c.restores fun _ _ _ _ hlen => packFields_two_decodedPicture (by rw [hlen, hb]; omega) hread

theorem PixelCodec.restores_of_nibble {field : Pixel → BitVec 4} {read : BitVec 4 → Pixel}
    (c : PixelCodec cfg fmt (packNibbles field) fun d i => read (nibbleField d i)) (hg : groupSize fmt = 2)
    (hb : bpp fmt = 4) (hread : ∀ n, field (read n) = n) : Restores cfg fmt := by
  refine c.restores fun d w h hgroup hlen => packNibbles_decodedPicture ?_ hread
  rw [hg] at hgroup
  rw [hb] at hlen
  omega

/-- The second law of R154 for each code of R62 but the color-indexed ones. -/
theorem restores_of_mem_codes (cfg : Config) (hfmt : fmt ∈ codes) (hci4 : fmt ≠ 0x40#8)
    (hci8 : fmt ≠ 0x48#8) : Restores cfg fmt := by
  simp only [codes, List.mem_cons, List.not_mem_nil, or_false, hci4, hci8, false_or] at hfmt
  rcases hfmt with rfl | rfl | rfl | rfl | rfl | rfl | rfl | rfl | rfl
  ·
    refine (pixelCodec_oneBpp cfg).restores fun d w h hgroup hlen => packMask_decodedPicture ?_
    have hgroup : w * h % 8 = 0 := hgroup
    have hlen : d.length = (w * h * 1 + 7) / 8 := hlen
    omega
  · exact (pixelCodec_rgba16 cfg).restores_of_two_bytes rfl rgba16Field_expand16
  ·
    refine (pixelCodec_rgba32 cfg).restores fun d w h _ hlen => packFields_decodedPicture ?_ fun i =>
      rgba32Field_rgba32Pixel_extract d (4 * i)
    have hlen : d.length = (w * h * 32 + 7) / 8 := hlen
    omega
  · exact (pixelCodec_ia4 cfg).restores_of_nibble rfl rfl ia4Field_ia4Pixel
  · exact (pixelCodec_ia8 cfg).restores_of_one_byte rfl ia8Field_ia8Pixel
  · exact (pixelCodec_ia16 cfg).restores_of_two_bytes rfl ia16Field_ia16Pixel
  · exact (pixelCodec_i4 cfg).restores_of_nibble rfl rfl (i4Field_i4Pixel cfg.i4DecodeAlpha)
  · exact (pixelCodec_i8 cfg).restores_of_one_byte rfl fun b => avg_grey b b
  · exact (pixelCodec_i4Alt cfg).restores_of_nibble rfl rfl (i4Field_i4Pixel cfg.i4DecodeAlpha)

end

/-- Settles O55: a reserved code decodes nothing, and every other code restores its data. -/
theorem encodeOfDecodeIsTheData : Obligations.EncodeOfDecodeIsTheData := by
  intro cfg fmt d w h px m hci4 hci8 hdec
  by_cases hfmt : fmt ∈ codes
  · exact restores_of_mem_codes cfg hfmt hci4 hci8 d w h px m hdec
  · rw [responseTo_dec_reserved d w h none hfmt] at hdec
    cases hdec

end Sys2Proof.Machine
end

section
/-! The ENCODE instructions (41_encode.md R110 to R121): the checks that they share, and the bytes that each
writes, as the numbers of its rule. -/

namespace Sys2Proof.Machine

open Sys2Proof.Claims (Answers BadDims Encodes ByteIs HalfIs NibbleIs q flag)

/-! ## The checks of an ENCODE -/

/-- The model's check of the dimensions is that of the statements: W is checked by 8 for OneBitAlpha alone
(41_encode.md R110, 42_decode.md R140). -/
theorem badDimension_iff_badDims {cfg : Config} {fmt : Byte} {w h : Nat} : badDimension cfg fmt w h = true ↔
    BadDims cfg (groupSize fmt) (if fmt = 0x00#8 then 8 else 1) w h := by
  rw [badDimension_iff]
  refine or_congr Iff.rfl (or_congr (not_congr (Nat.dvd_iff_mod_eq_zero ..).symm) ?_)
  split
  case isTrue h0 => simp [h0, Nat.dvd_iff_mod_eq_zero]
  case isFalse h0 => simp [h0]

/-- An instruction that is an ENCODE of the format with `pack` does what the statements say, where the bytes
that `pack` writes for a buffer of whole pixel groups hold each pixel as `Field` says. -/
theorem encodes_of_serveEncode {cmd : Half} {i : Instr} {fmt : Byte} {pack : PixelBuffer → List Byte}
    {group divisor : Nat} {length : Nat → Nat} {Field : List Byte → Nat → Pixel → Prop}
    (hdecode : decode cmd = .instr i) (hexec : exec i = serveEncode fmt pack)
    (hgroup : groupSize fmt = group) (hdivisor : (if fmt = 0x00#8 then 8 else 1) = divisor)
    (hlength : ∀ p, (pack p).length = length p.count)
    (hfield : ∀ (p : PixelBuffer) (k : Nat), k < p.count → p.count % group = 0 →
      Field (pack p) k (p.pix k)) :
    Encodes cmd i group divisor fun p out => out.length = length (p.width * p.height) ∧
      ∀ (k : Nat) (x : Pixel), p.pixels[k]? = some x → Field out k x := by
  subst hgroup hdivisor
  refine ⟨hdecode, fun s r p hs hp => ?_⟩
  have answers {res : Except ErrorReport Result} (hbody : encodeBody s.config fmt pack p = res) :
      exec i s = .next (s.conclude res) := by
    rw [hexec, ← hbody]
    exact serve_of_serves hs (encodeOperand_of hp)
  rw [← badDimension_iff_badDims]
  refine ⟨fun hbad => answers (if_pos hbad),
    fun hgood hlen => answers ((if_neg hgood).trans (if_pos hlen)),
    fun hgood hlen => ⟨pack p, answers ((if_neg hgood).trans (if_neg (not_not.mpr hlen))), hlength p,
      fun k x hx => ?_⟩⟩
  obtain ⟨hk, -⟩ := List.getElem?_eq_some_iff.mp hx
  rw [← PixelBuffer.pix_of hx]
  exact hfield p k (hk.trans_eq hlen) (group_of_good (Bool.eq_false_of_not_eq_true hgood))

/-- The code enters an ENCODE only through its pixel group, but for the width check of OneBitAlpha (41_encode.md
R110). -/
theorem serveEncode_congr {fmt fmt' : Byte} (hgroup : groupSize fmt = groupSize fmt') (h0 : fmt ≠ 0x00#8)
    (h0' : fmt' ≠ 0x00#8) (pack : PixelBuffer → List Byte) :
    serveEncode fmt pack = serveEncode fmt' pack := by
  have hbad (cfg : Config) (w h : Nat) : badDimension cfg fmt w h = badDimension cfg fmt' w h := by
    rw [Bool.eq_iff_iff, badDimension_iff, badDimension_iff, hgroup]
    simp only [h0, h0', false_and]
  have hbody (cfg : Config) : encodeBody cfg fmt pack = encodeBody cfg fmt' pack := by
    funext p
    rw [encodeBody, encodeBody, hbad, hgroup]
  funext s
  rw [serveEncode, serveEncode, hbody]

/-! ## Values in the byte space -/

section
variable {d : List Byte} {a : Nat}

theorem byteIs_memRead (h : a < d.length) : ByteIs d a (memRead d a 1).toNat :=
  ⟨_, getElem?_byteAt h, congrArg BitVec.toNat (memRead_one d a).symm⟩

theorem halfIs_memRead (h : a + 1 < d.length) : HalfIs d a (memRead d a 2).toNat := by
  rw [memRead_two]
  exact ⟨_, _, getElem?_byteAt (by omega), getElem?_byteAt h,
    (append_toNat (byteAt d a) (byteAt d (a + 1))).symm⟩

theorem nibbleIs_nibbleField (h : a / 2 < d.length) : NibbleIs d a (nibbleField d a).toNat := by
  refine ⟨_, getElem?_byteAt h, ?_⟩
  have := (byteAt d (a / 2)).isLt
  unfold nibbleField
  split
  · rw [BitVec.extractLsb'_toNat, Nat.shiftRight_eq_div_pow]
    omega
  · rw [BitVec.extractLsb'_toNat, Nat.shiftRight_eq_div_pow]
    omega

/-- The bit of a pixel in its byte (20_memory.md R43). -/
theorem byteAt_getLsbD_eq_bitField (d : List Byte) (k : Nat) :
    (byteAt d (k / 8)).getLsbD (7 - k % 8) = (bitField d k).getLsbD 0 := by
  simp [bitField]

end

/-! ## The bytes of each packing -/

theorem packFields_one_length {field : Pixel → Byte} (p : PixelBuffer) :
    (packFields 1 field p).length = p.count := by
  rw [packFields_length, Nat.one_mul]

section
variable {p : PixelBuffer} {k : Nat} (hk : k < p.count)
include hk

theorem byteIs_packFields_one (field : Pixel → Byte) :
    ByteIs (packFields 1 field p) k (field (p.pix k)).toNat := by
  rw [← memRead_packFields_one hk field]
  exact byteIs_memRead (by rw [packFields_length]; omega)

theorem halfIs_packFields_two (field : Pixel → Half) :
    HalfIs (packFields 2 field p) (2 * k) (field (p.pix k)).toNat := by
  rw [← memRead_packFields_two hk field]
  exact halfIs_memRead (by rw [packFields_length]; omega)

theorem nibbleIs_packNibbles (hgroup : p.count % 2 = 0) (field : Pixel → BitVec 4) :
    NibbleIs (packNibbles field p) k (field (p.pix k)).toNat := by
  rw [← nibbleField_packNibbles_of_even field hk hgroup]
  exact nibbleIs_nibbleField (by rw [packNibbles_length]; omega)

/-- The two bytes of an IA16 pixel are its intensity and its alpha (41_encode.md R116). -/
theorem byteIs_packFields_ia16 : ByteIs (packFields 2 ia16Field p) (2 * k) (p.pix k).avg.toNat ∧
    ByteIs (packFields 2 ia16Field p) (2 * k + 1) (p.pix k).a.toNat := by
  have byte {j : Nat} (hj : j < 2) := packFields_getElem? (n := 2) ia16Field p hk hj
  have hi : (ia16Field (p.pix k)).extractLsb' 8 8 = (p.pix k).avg := extract_append_high _ _
  have lo : (ia16Field (p.pix k)).extractLsb' 0 8 = (p.pix k).a := extract_append_low _ _
  exact ⟨⟨_, byte (j := 0) (by decide), congrArg BitVec.toNat hi⟩,
    ⟨_, byte (j := 1) (by decide), congrArg BitVec.toNat lo⟩⟩

/-- The four bytes of an RGBA32 pixel are its channels (41_encode.md R113). -/
theorem packFields_rgba32_getElem? :
    (packFields 4 rgba32Field p)[4 * k]? = some (p.pix k).r ∧
    (packFields 4 rgba32Field p)[4 * k + 1]? = some (p.pix k).g ∧
    (packFields 4 rgba32Field p)[4 * k + 2]? = some (p.pix k).b ∧
    (packFields 4 rgba32Field p)[4 * k + 3]? = some (p.pix k).a := by
  have byte {j : Nat} (hj : j < 4) := packFields_getElem? (n := 4) rgba32Field p hk hj
  obtain ⟨hr, hg, hb, ha⟩ := rgba32_fields (p.pix k).r (p.pix k).g (p.pix k).b (p.pix k).a
  exact ⟨(byte (j := 0) (by decide)).trans (congrArg some hr),
    (byte (j := 1) (by decide)).trans (congrArg some hg),
    (byte (j := 2) (by decide)).trans (congrArg some hb),
    (byte (j := 3) (by decide)).trans (congrArg some ha)⟩

theorem packMask_bit (hgroup : p.count % 8 = 0) :
    ∃ b, (packMask p)[k / 8]? = some b ∧ b.getLsbD (7 - k % 8) = (maskFlag (p.pix k).a).getLsbD 0 := by
  refine ⟨_, getElem?_byteAt (by rw [packMask_length]; omega), ?_⟩
  rw [byteAt_getLsbD_eq_bitField, bitField_packMask p (by omega)]

end

/-! ## The fields as numbers -/

theorem maskFlag_getLsbD (a : Byte) : (maskFlag a).getLsbD 0 = decide (0 < a.toNat) := by
  unfold maskFlag
  split
  case isTrue h => simp [h]
  case isFalse h => simp [h]

theorem rgba16Field_toNat (x : Pixel) : (rgba16Field x).toNat =
    (q 5 x.r.toNat <<< 11 ||| q 5 x.g.toNat <<< 6 ||| q 5 x.b.toNat <<< 1 ||| flag x) := by
  simp only [rgba16Field, BitVec.toNat_append, quantize_toNat, opaqueFlag_toNat, Nat.shiftLeft_or_distrib,
    ← Nat.shiftLeft_add]

theorem ia4Field_toNat (x : Pixel) : (ia4Field x).toNat = (q 3 (Claims.avg x) <<< 1 ||| flag x) := by
  rw [ia4Field, BitVec.toNat_append, quantize_toNat, opaqueFlag_toNat, claims_avg_eq]

theorem ia8Field_toNat (x : Pixel) :
    (ia8Field x).toNat = (q 4 (Claims.avg x) <<< 4 ||| q 4 x.a.toNat) := by
  rw [ia8Field, BitVec.toNat_append, quantize_toNat, quantize_toNat, claims_avg_eq]

theorem i4Field_toNat (x : Pixel) : (i4Field x).toNat = q 4 (Claims.avg x) := by
  rw [i4Field, quantize_toNat, claims_avg_eq]

/-! ## The instructions -/

/-- Settles O31: the bit of each pixel in the packed mask is its flag. -/
theorem encodeOneBitAlpha : Obligations.EncodeOneBitAlpha := by
  refine encodes_of_serveEncode (length := (· / 8)) (decode_encode .encOneBpp) rfl rfl rfl packMask_length
    fun p k hk hgroup => ?_
  rw [← maskFlag_getLsbD]
  exact packMask_bit hk hgroup

/-- Settles O32: the big-endian value of each pixel is `rgba16Field`, as a number. -/
theorem encodeRgba16 : Obligations.EncodeRgba16 := by
  refine encodes_of_serveEncode (length := (2 * ·)) (decode_encode .encRgba16) rfl rfl rfl
    (packFields_length 2 _) fun p k hk _ => ?_
  rw [← rgba16Field_toNat]
  exact halfIs_packFields_two hk _

/-- Settles O33: the four bytes of each pixel are its channels. -/
theorem encodeRgba32 : Obligations.EncodeRgba32 :=
  encodes_of_serveEncode (length := (4 * ·)) (decode_encode .encRgba32) rfl rfl rfl (packFields_length 4 _)
    fun _ _ hk _ => packFields_rgba32_getElem? hk

/-- Settles O34: the nibble of each pixel is `ia4Field`, as a number. -/
theorem encodeIa4 : Obligations.EncodeIa4 := by
  refine encodes_of_serveEncode (length := (· / 2)) (decode_encode .encIa4) rfl rfl rfl (packNibbles_length _)
    fun p k hk hgroup => ?_
  rw [← ia4Field_toNat]
  exact nibbleIs_packNibbles hk hgroup _

/-- Settles O35: the byte of each pixel is `ia8Field`, as a number. -/
theorem encodeIa8 : Obligations.EncodeIa8 := by
  refine encodes_of_serveEncode (length := id) (decode_encode .encIa8) rfl rfl rfl packFields_one_length
    fun p k hk _ => ?_
  rw [← ia8Field_toNat]
  exact byteIs_packFields_one hk _

/-- Settles O36: the two bytes of each pixel are its average and its alpha. -/
theorem encodeIa16 : Obligations.EncodeIa16 := by
  refine encodes_of_serveEncode (length := (2 * ·)) (decode_encode .encIa16) rfl rfl rfl
    (packFields_length 2 _) fun p k hk _ => ?_
  rw [claims_avg_eq]
  exact byteIs_packFields_ia16 hk

/-- ENCODE by nibbles of the intensity, with a code of pixel group 2 (41_encode.md R117, R118). -/
theorem encodes_i4 {cmd : Half} {i : Instr} {fmt : Byte} (hdecode : decode cmd = .instr i)
    (hexec : exec i = serveEncode fmt (packNibbles i4Field)) (hgroup : groupSize fmt = 2)
    (h0 : fmt ≠ 0x00#8) :
    Encodes cmd i 2 1 fun p out => out.length = p.width * p.height / 2 ∧
      ∀ (k : Nat) (x : Pixel), p.pixels[k]? = some x → NibbleIs out k (q 4 (Claims.avg x)) := by
  refine encodes_of_serveEncode (length := (· / 2)) hdecode hexec hgroup (if_neg h0) (packNibbles_length _)
    fun p k hk hgroup => ?_
  rw [← i4Field_toNat]
  exact nibbleIs_packNibbles hk hgroup _

/-- Settles O37: the nibble of each pixel is `i4Field`, as a number. -/
theorem encodeI4 : Obligations.EncodeI4 := encodes_i4 (decode_encode .encI4) rfl rfl (by decide)

/-- Settles O38: the second code is packed as ENC.I4 and has its pixel group. -/
theorem encodeI4SecondCode : Obligations.EncodeI4SecondCode :=
  ⟨encodes_i4 (decode_encode .encI4Alt) rfl rfl (by decide),
    congrFun (serveEncode_congr (fmt := 0x90#8) (fmt' := 0x80#8) rfl (by decide) (by decide) _)⟩

/-- Settles O39: the byte of each pixel is its average. -/
theorem encodeI8 : Obligations.EncodeI8 := by
  refine encodes_of_serveEncode (length := id) (decode_encode .encI8) rfl rfl rfl packFields_one_length
    fun p k hk _ => ?_
  rw [claims_avg_eq]
  exact byteIs_packFields_one hk _

/-- Settles O40: the body of both instructions is the error. -/
theorem encodeIndexedIsUnsupported : Obligations.EncodeIndexedIsUnsupported :=
  ⟨decode_encode .encCi4, decode_encode .encCi8, fun _ _ _ hs hp =>
    ⟨serve_of_serves hs (encodeOperand_of hp), serve_of_serves hs (encodeOperand_of hp)⟩⟩

end Sys2Proof.Machine
end

section
/-! The DECODE instructions (42_decode.md R140 to R153): the checks that they share, what each packed field
reads as, in numbers, and the palette lookups. -/

namespace Sys2Proof.Machine

open Sys2Proof.Claims (Answers BadDims Decodes DecodesIndexed ByteIs HalfIs NibbleIs PixelIs Expands)

/-! ## The fields as numbers -/

theorem scale_extractLsb'_toNat {w factor : Nat} (v : BitVec w) (lo len : Nat) (h : 2 ^ len * factor ≤ 256) :
    (scale factor (v.extractLsb' lo len)).toNat = v.toNat / 2 ^ lo % 2 ^ len * factor := by
  rw [scale_toNat _ h, BitVec.extractLsb'_toNat, Nat.shiftRight_eq_div_pow]

theorem expandFlag_extractLsb'_toNat {w : Nat} (v : BitVec w) (lo : Nat) :
    (expandFlag (v.extractLsb' lo 1)).toNat = if v.toNat / 2 ^ lo % 2 = 1 then 255 else 0 := by
  rw [expandFlag_toNat, BitVec.extractLsb'_toNat, Nat.shiftRight_eq_div_pow, Nat.pow_one]

/-- Expand16 as numbers (42_decode.md R141). -/
theorem expands_expand16 (v : Half) : Expands (expand16 v) v.toNat := by
  refine ⟨scale_extractLsb'_toNat v 11 5 (by decide), scale_extractLsb'_toNat v 6 5 (by decide),
    scale_extractLsb'_toNat v 1 5 (by decide), ?_⟩
  rw [expand16, expandFlag_extractLsb'_toNat, Nat.pow_zero, Nat.div_one]

/-- A color channel of Expand16, as the number of R141, is a multiple of 8 in its range. -/
theorem channel_range {c x : Nat} (h : c = x % 32 * 8) : c ≤ 248 ∧ 8 ∣ c := by omega

/-- Settles O24: each channel is the one of R141, whose field has 5 bits. -/
theorem expansionOfASixteenBitValue : Obligations.ExpansionOfASixteenBitValue := by
  intro v
  obtain ⟨hr, hg, hb, -⟩ := expands_expand16 v
  obtain ⟨hr, hr8⟩ := channel_range hr
  obtain ⟨hg, hg8⟩ := channel_range hg
  obtain ⟨hb, hb8⟩ := channel_range hb
  exact ⟨expands_expand16 v, hr, hg, hb, hr8, hg8, hb8⟩

theorem pixelIs_maskPixel (m : BitVec 1) : if m.getLsbD 0 then PixelIs (maskPixel m) 255 255 255 255
    else PixelIs (maskPixel m) 0 0 0 0 := by
  revert m
  decide

theorem pixelIs_ia8Pixel (b : Byte) : PixelIs (ia8Pixel b) (b.toNat / 16 * 16) (b.toNat / 16 * 16)
    (b.toNat / 16 * 16) (b.toNat % 16 * 16) := by
  have := b.isLt
  refine pixelIs_grey ?_ ?_
  · rw [scale_extractLsb'_toNat b 4 4 (by decide)]
    omega
  · rw [scale_extractLsb'_toNat b 0 4 (by decide)]
    omega

theorem pixelIs_ia4Pixel (n : BitVec 4) : PixelIs (ia4Pixel n) (n.toNat / 2 * 32) (n.toNat / 2 * 32)
    (n.toNat / 2 * 32) (if n.toNat % 2 = 1 then 255 else 0) := by
  revert n
  decide

theorem pixelIs_i4Pixel (alpha : I4Alpha) (n : BitVec 4) : PixelIs (i4Pixel alpha n) (n.toNat * 16)
    (n.toNat * 16) (n.toNat * 16) (if alpha = .opaque255 then 255 else n.toNat * 16) := by
  have hscale : (scale 16 n).toNat = n.toNat * 16 := scale_toNat n (by decide)
  cases alpha
  case opaque255 => exact pixelIs_grey hscale rfl
  case intensity => exact pixelIs_grey hscale hscale

/-! ## Reads inside the data -/

section
variable {d : List Byte} {k v : Nat}

theorem byteIs_iff (hk : k < d.length) : ByteIs d k v ↔ (memRead d k 1).toNat = v := by
  rw [memRead_one, ByteIs, getElem?_byteAt hk]
  simp

theorem nibbleIs_iff (hk : k / 2 < d.length) : NibbleIs d k v ↔ (nibbleField d k).toNat = v := by
  obtain ⟨b, hb, hv⟩ := nibbleIs_nibbleField hk
  rw [← hv, NibbleIs, hb]
  simp

/-- The pixel of a nibble of IA4, by the bits of its byte: "the low pixel's intensity is bits 3:1"
(42_decode.md R147). -/
theorem ia4Pixel_nibbleField (hk : k / 2 < d.length) : ∃ b, ByteIs d (k / 2) b ∧
    if k % 2 = 0 then PixelIs (ia4Pixel (nibbleField d k)) (b / 32 * 32) (b / 32 * 32) (b / 32 * 32)
      (if b / 16 % 2 = 1 then 255 else 0)
    else PixelIs (ia4Pixel (nibbleField d k)) (b / 2 % 8 * 32) (b / 2 % 8 * 32) (b / 2 % 8 * 32)
      (if b % 2 = 1 then 255 else 0) := by
  obtain ⟨b, hb, hn⟩ := nibbleIs_nibbleField hk
  have hpixel := pixelIs_ia4Pixel (nibbleField d k)
  refine ⟨b.toNat, ⟨b, hb, rfl⟩, ?_⟩
  split
  case isTrue heven =>
    rw [if_pos heven] at hn
    rwa [← hn, Nat.div_div_eq_div_mul] at hpixel
  case isFalse hodd =>
    rw [if_neg hodd] at hn
    rwa [← hn, show b.toNat % 16 / 2 = b.toNat / 2 % 8 by omega,
      show b.toNat % 16 % 2 = b.toNat % 2 by omega] at hpixel

end

/-! ## Packed lengths by format -/

section
variable {fmt : Byte}

theorem packedLen_of_bytes {n : Nat} (hb : bpp fmt = 8 * n) (w h : Nat) :
    packedLen fmt w h = n * (w * h) := by
  have hbits : w * h * (8 * n) = 8 * (n * (w * h)) := by ring
  rw [packedLen, hb, hbits]
  omega

theorem packedLen_of_one_byte (hb : bpp fmt = 8) (w h : Nat) : packedLen fmt w h = w * h := by
  rw [packedLen_of_bytes (n := 1) hb, Nat.one_mul]

theorem packedLen_of_nibbles (hb : bpp fmt = 4) (w h : Nat) (hgroup : w * h % 2 = 0) :
    packedLen fmt w h = w * h / 2 := by
  rw [packedLen, hb]
  omega

theorem packedLen_of_bits (hb : bpp fmt = 1) (w h : Nat) (hgroup : w * h % 8 = 0) :
    packedLen fmt w h = w * h / 8 := by
  rw [packedLen, hb]
  omega

end

/-- What the statement of a DECODE says of its format code: the pixel group, the divisor of W, the length of
the data, and the name in the metadata. -/
structure DecodeRow (fmt : Byte) (group divisor : Nat) (length : Nat → Nat) (name : String) : Prop where
  group_eq : groupSize fmt = group
  divisor_eq : (if fmt = 0x00#8 then 8 else 1) = divisor
  packedLen_eq : ∀ w h, w * h % group = 0 → packedLen fmt w h = length (w * h)
  name_eq : metadataName fmt = name.toList

/-! ## The checks of a DECODE -/

/-- The response to a DECODE that passes the dimension and length checks, by what unpacking gives. -/
def unpackedResponse (name : String) (w h : Nat) : Except ErrorReport (List Pixel) → Response
  | .error e => .error e
  | .ok px => .ok (.picture ⟨w, h, px⟩ ⟨name.toList, w, h⟩)

/-- The checks of 42_decode.md R140 in its order, for an instruction that is a DECODE of the format. -/
theorem DecodeRow.answers {fmt : Byte} {group divisor : Nat} {length : Nat → Nat} {name : String}
    (row : DecodeRow fmt group divisor length name) {i : Instr}
    {unpack : DecodeOperands → Except ErrorReport (List Pixel)} {s : State} {r : Request} {d : List Byte}
    {w h : Nat} (hexec : exec i s = serveDecode fmt unpack s) (hs : s.Serves r) (hd : r.data = some d)
    (hw : r.width = some w) (hh : r.height = some h) :
    (BadDims s.config group divisor w h → Answers i s (.error (.dimension w h group))) ∧
    (¬ BadDims s.config group divisor w h → d.length ≠ length (w * h) →
      Answers i s (.error (.length (length (w * h)) d.length))) ∧
    (¬ BadDims s.config group divisor w h → d.length = length (w * h) → w * h % group = 0 ∧
      Answers i s (unpackedResponse name w h (unpack ⟨d, w, h, r.palette⟩))) := by
  obtain ⟨rfl, rfl, hlength, hname⟩ := row
  have answers {res : Except ErrorReport Result}
      (hbody : decodeBody s.config fmt unpack ⟨d, w, h, r.palette⟩ = res) :
      exec i s = .next (s.conclude res) := by
    rw [hexec, ← hbody]
    exact serve_of_serves hs (decodeOperands_of hd hw hh)
  have hgroup (hgood : ¬ badDimension s.config fmt w h = true) : w * h % groupSize fmt = 0 :=
    group_of_good (Bool.eq_false_of_not_eq_true hgood)
  rw [← badDimension_iff_badDims]
  refine ⟨fun hbad => answers (if_pos hbad), fun hgood hlen => ?_, fun hgood hlen => ⟨hgroup hgood, ?_⟩⟩
  · rw [← hlength w h (hgroup hgood)] at hlen ⊢
    exact answers ((if_neg hgood).trans (if_pos hlen))
  · rw [← hlength w h (hgroup hgood)] at hlen
    have hbody := answers ((if_neg hgood).trans (if_neg (not_not.mpr hlen)))
    rw [hname] at hbody
    cases hunpack : unpack ⟨d, w, h, r.palette⟩ with
    | error e => rwa [hunpack] at hbody
    | ok px => rwa [hunpack] at hbody

/-- An instruction that is a DECODE pixel by pixel does what the statements say, where each pixel inside data
of the right length is as `Unpacked` says. -/
theorem DecodeRow.decodes {fmt : Byte} {group divisor : Nat} {length : Nat → Nat} {name : String}
    (row : DecodeRow fmt group divisor length name) {i : Instr} {pixel : State → List Byte → Nat → Pixel}
    {Unpacked : Config → List Byte → Nat → Pixel → Prop} {cmd : Half} (hdecode : decode cmd = .instr i)
    (hexec : ∀ s, exec i s = serveDecode fmt (unpackEach (pixel s)) s)
    (hpixel : ∀ (s : State) (d : List Byte) (n k : Nat), k < n → n % group = 0 → d.length = length n →
      Unpacked s.config d k (pixel s d k)) :
    Decodes cmd i group divisor length name Unpacked := by
  refine ⟨hdecode, fun s r d w h hs hd hw hh => ?_⟩
  obtain ⟨hdims, hlen, hok⟩ := row.answers (hexec s) hs hd hw hh
  refine ⟨hdims, hlen, fun hgood hl => ?_⟩
  obtain ⟨hgroup, hanswer⟩ := hok hgood hl
  refine ⟨_, hanswer, by simp [DecodeOperands.count], fun k p hp => ?_⟩
  obtain ⟨hk, rfl⟩ := List.getElem?_eq_some_iff.mp hp
  rw [List.length_map, List.length_range] at hk
  rw [List.getElem_map, List.getElem_range]
  exact hpixel s d (w * h) k hk hgroup hl

/-! ## The palette -/

theorem unpackIndexed_of_palette {fmt : Byte} {index : List Byte → Nat → Nat} {d : List Byte} {w h : Nat}
    {pal : List Half} : unpackIndexed fmt index ⟨d, w, h, some pal⟩ =
      palLookups pal (index d) (List.range (w * h)) := rfl

/-- An instruction that is a DECODE through the palette does what the statements say, where the index of each
pixel inside data of the right length is the one that `IndexIs` names (42_decode.md R151). -/
theorem DecodeRow.decodesIndexed {fmt : Byte} {group : Nat} {length : Nat → Nat} {name : String}
    (row : DecodeRow fmt group 1 length name) {i : Instr} {index : List Byte → Nat → Nat}
    {IndexIs : List Byte → Nat → Nat → Prop} {cmd : Half} (hdecode : decode cmd = .instr i)
    (hexec : exec i = serveDecode fmt (unpackIndexed fmt index))
    (hindex : ∀ (d : List Byte) (n k v : Nat), k < n → n % group = 0 → d.length = length n →
      (IndexIs d k v ↔ index d k = v)) :
    DecodesIndexed cmd i fmt group length name IndexIs := by
  refine ⟨hdecode, fun s r d w h hs hd hw hh => ?_⟩
  obtain ⟨hdims, hlen, hok⟩ := row.answers (congrFun hexec s) hs hd hw hh
  refine ⟨hdims, hlen, fun hgood hl => ?_⟩
  obtain ⟨hgroup, hanswer⟩ := hok hgood hl
  have reads {k v : Nat} (hk : k < w * h) : IndexIs d k v ↔ index d k = v := hindex d (w * h) k v hk hgroup hl
  refine ⟨fun hpal => ?missing, fun pal hpal => ⟨fun k v hk hv hout hfirst => ?outside, fun hin => ?inside⟩⟩
  case missing =>
    rwa [hpal] at hanswer
  case outside =>
    obtain rfl := (reads hk).mp hv
    have hlookups : palLookups pal (index d) (List.range (w * h)) =
        .error (.paletteIndex k (index d k) pal.length) := by
      refine palLookups_error (m := k) (List.getElem?_range hk) hout fun m j hm hj => ?_
      obtain rfl : m = j := by simpa [hm.trans hk] using hj
      exact hfirst m _ hm ((reads (hm.trans hk)).mpr rfl)
    rwa [hpal, unpackIndexed_of_palette, hlookups] at hanswer
  case inside =>
    obtain ⟨px, hlookups, hpx, hentry⟩ := palLookups_ok (pal := pal) (index := index d)
      (l := List.range (w * h)) fun k hk =>
        hin k _ (List.mem_range.mp hk) ((reads (List.mem_range.mp hk)).mpr rfl)
    rw [List.length_range] at hpx
    refine ⟨px, ?_, hpx, fun k p hp => ?_⟩
    · rwa [hpal, unpackIndexed_of_palette, hlookups] at hanswer
    · obtain ⟨hk, -⟩ := List.getElem?_eq_some_iff.mp hp
      rw [hpx] at hk
      obtain ⟨e, he, hpe⟩ := hentry k k (List.getElem?_range hk)
      obtain rfl : expand16 e = p := Option.some.inj (hpe.symm.trans hp)
      exact ⟨index d k, e, (reads hk).mpr rfl, he, expands_expand16 e⟩

/-! ## The instructions -/

/-- Settles O41: the bit of each pixel is expanded to all its channels. -/
theorem decodeOneBitAlpha : Obligations.DecodeOneBitAlpha := by
  unfold Obligations.DecodeOneBitAlpha
  have row : DecodeRow 0x00#8 8 8 (fun n => n / 8) "RGBA4" := ⟨rfl, rfl, packedLen_of_bits rfl, by decide⟩
  refine row.decodes (decode_encode .decOneBpp) (fun _ => rfl) fun _ d n k hk hgroup hlen => ?_
  refine ⟨_, getElem?_byteAt (by omega), ?_⟩
  rw [byteAt_getLsbD_eq_bitField]
  exact pixelIs_maskPixel _

/-- Settles O42: each pixel is Expand16 of the big-endian value that is read. -/
theorem decodeRgba16 : Obligations.DecodeRgba16 := by
  unfold Obligations.DecodeRgba16
  have row : DecodeRow 0x10#8 1 1 (fun n => 2 * n) "RGBA16" :=
    ⟨rfl, rfl, fun w h _ => packedLen_of_bytes rfl w h, by decide⟩
  exact row.decodes (decode_encode .decRgba16) (fun _ => rfl) fun _ d n k hk _ hlen =>
    ⟨_, halfIs_memRead (by omega), expands_expand16 _⟩

/-- Settles O43: each channel is a byte that is read. -/
theorem decodeRgba32 : Obligations.DecodeRgba32 := by
  unfold Obligations.DecodeRgba32
  have row : DecodeRow 0x18#8 1 1 (fun n => 4 * n) "RGBA32" :=
    ⟨rfl, rfl, fun w h _ => packedLen_of_bytes rfl w h, by decide⟩
  refine row.decodes (decode_encode .decRgba32) (fun _ => rfl) fun _ d n k hk _ hlen => ?_
  simp only [rgba32Pixel, memRead_one]
  exact ⟨getElem?_byteAt (by omega), getElem?_byteAt (by omega), getElem?_byteAt (by omega),
    getElem?_byteAt (by omega)⟩

/-- Settles O44: the high byte of the value that is read is the intensity, the low one the alpha. -/
theorem decodeIa16 : Obligations.DecodeIa16 := by
  unfold Obligations.DecodeIa16
  have row : DecodeRow 0x70#8 1 1 (fun n => 2 * n) "IA16" :=
    ⟨rfl, rfl, fun w h _ => packedLen_of_bytes rfl w h, by decide⟩
  refine row.decodes (decode_encode .decIa16) (fun _ => rfl) fun _ d n k hk _ hlen => ?_
  rw [memRead_two, ia16Pixel, extract_append_high, extract_append_low]
  exact ⟨getElem?_byteAt (by omega), rfl, rfl, getElem?_byteAt (by omega)⟩

/-- Settles O45: both channels are nibbles of the byte that is read. -/
theorem decodeIa8 : Obligations.DecodeIa8 := by
  unfold Obligations.DecodeIa8
  have row : DecodeRow 0x68#8 1 1 (fun n => n) "IA8" :=
    ⟨rfl, rfl, fun w h _ => packedLen_of_one_byte rfl w h, by decide⟩
  exact row.decodes (decode_encode .decIa8) (fun _ => rfl) fun _ d n k hk _ hlen =>
    ⟨_, byteIs_memRead (by omega), pixelIs_ia8Pixel _⟩

/-- Settles O46: each pixel is read from its nibble. -/
theorem decodeIa4 : Obligations.DecodeIa4 := by
  unfold Obligations.DecodeIa4
  have row : DecodeRow 0x60#8 2 1 (fun n => n / 2) "IA4" := ⟨rfl, rfl, packedLen_of_nibbles rfl, by decide⟩
  exact row.decodes (decode_encode .decIa4) (fun _ => rfl) fun _ d n k hk hgroup hlen =>
    ia4Pixel_nibbleField (by omega)

/-- Settles O47: the byte that is read is in all four channels. -/
theorem decodeI8 : Obligations.DecodeI8 := by
  unfold Obligations.DecodeI8
  have row : DecodeRow 0x88#8 1 1 (fun n => n) "I8" :=
    ⟨rfl, rfl, fun w h _ => packedLen_of_one_byte rfl w h, by decide⟩
  refine row.decodes (decode_encode .decI8) (fun _ => rfl) fun _ d n k hk _ hlen => ?_
  rw [memRead_one]
  exact ⟨getElem?_byteAt (by omega), rfl, rfl, rfl⟩

/-- DECODE by nibbles of the intensity (42_decode.md R149, R150). -/
theorem DecodeRow.decodes_i4 {fmt : Byte} {name : String} (row : DecodeRow fmt 2 1 (fun n => n / 2) name)
    {cmd : Half} {i : Instr} (hdecode : decode cmd = .instr i)
    (hexec : ∀ s, exec i s =
      serveDecode fmt (unpackEach fun d k => i4Pixel s.config.i4DecodeAlpha (nibbleField d k)) s) :
    Decodes cmd i 2 1 (fun n => n / 2) name fun cfg d k p => ∃ n, NibbleIs d k n ∧
      PixelIs p (n * 16) (n * 16) (n * 16) (if cfg.i4DecodeAlpha = .opaque255 then 255 else n * 16) :=
  row.decodes hdecode hexec fun _ d n k hk hgroup hlen =>
    ⟨_, nibbleIs_nibbleField (by omega), pixelIs_i4Pixel _ _⟩

/-- Settles O48: the nibble of each pixel is widened. -/
theorem decodeI4 : Obligations.DecodeI4 := by
  have row : DecodeRow 0x80#8 2 1 (fun n => n / 2) "I4" := ⟨rfl, rfl, packedLen_of_nibbles rfl, by decide⟩
  exact row.decodes_i4 (decode_encode .decI4) fun _ => rfl

/-- Settles O49: the second code reads as DEC.I4, under its own name. -/
theorem decodeI4SecondCode : Obligations.DecodeI4SecondCode := by
  have row : DecodeRow 0x90#8 2 1 (fun n => n / 2) "I16" := ⟨rfl, rfl, packedLen_of_nibbles rfl, by decide⟩
  exact row.decodes_i4 (decode_encode .decI4Alt) fun _ => rfl

/-- Settles O50: the index of each pixel is its nibble. -/
theorem decodeCi4ThroughThePalette : Obligations.DecodeCi4ThroughThePalette := by
  have row : DecodeRow 0x40#8 2 1 (fun n => n / 2) "CI4" := ⟨rfl, rfl, packedLen_of_nibbles rfl, by decide⟩
  exact row.decodesIndexed (decode_encode .decCi4) rfl fun d n k v hk hgroup hlen => nibbleIs_iff (by omega)

/-- Settles O51: the index of each pixel is its byte. -/
theorem decodeCi8ThroughThePalette : Obligations.DecodeCi8ThroughThePalette := by
  have row : DecodeRow 0x48#8 1 1 (fun n => n) "CI8" :=
    ⟨rfl, rfl, fun w h _ => packedLen_of_one_byte rfl w h, by decide⟩
  exact row.decodesIndexed (decode_encode .decCi8) rfl fun d n k v hk _ hlen => byteIs_iff (by omega)

end Sys2Proof.Machine
end

section
/-! The life of a transaction (60_exceptions.md R170 to R173): the interface lets in only requests that have
their operands, the machine never stops on one of them, and each ends with its response. -/

namespace Sys2Proof.Machine

open Sys2Proof.Claims (Lacks)

/-! ## The invariant -/

theorem State.wellFormed_iff {s : State} :
    s.wellFormed = true ↔ ∀ t ∈ s.pending, t.request.wellFormed = true :=
  List.all_eq_true

theorem State.exists_current_of_pending {s : State} (h : s.pending ≠ []) : ∃ t, s.current = some t :=
  Option.ne_none_iff_exists'.mp (mt State.current_eq_none_iff.mp h)

/-- A step answers a next state for a transaction that has its operands, disturbed or not. -/
theorem exists_step_next {s : State} {t : Transaction} (ht : s.current = some t)
    (hwf : t.request.wellFormed = true) : ∃ s', step s = .next s' := by
  obtain ⟨res, hres⟩ := step_settles s.config t.request
  rw [hres s t ht rfl rfl, t.request.missing_eq_none_iff.mpr hwf]
  cases hd : t.disturbed <;> simp [settle, hd]

/-- What an answer and a draw have in common: a response is delivered, and the transaction whose turn it is
leaves `pending`. -/
theorem Concludes.frame {s s' : State} (h : Concludes s s') : (∃ resp, s'.response = some resp) ∧
    s'.pending = s.pending.eraseIdx s.turn ∧ s'.config = s.config := by
  obtain ⟨-, ⟨resp, rfl⟩ | rfl⟩ := h
  · exact ⟨⟨resp, rfl⟩, rfl, rfl⟩
  · exact ⟨⟨_, rfl⟩, rfl, rfl⟩

/-- Taking a transaction out keeps the invariant. -/
theorem State.wellFormed_of_eraseIdx {s s' : State} {k : Nat} (h : s.wellFormed = true)
    (hpending : s'.pending = s.pending.eraseIdx k) : s'.wellFormed = true := by
  rw [State.wellFormed_iff] at h ⊢
  rw [hpending]
  exact fun t ht => h t (List.mem_of_mem_eraseIdx ht)

/-- A step of a well-formed state with a transaction in progress ends the one whose turn it is. -/
theorem exists_step_of_wellFormed {s : State} (h : s.wellFormed = true) (hpending : s.pending ≠ []) :
    ∃ s' resp, step s = .next s' ∧ s'.response = some resp ∧
      s'.pending = s.pending.eraseIdx s.turn ∧ s'.config = s.config ∧ s'.wellFormed = true := by
  obtain ⟨t, ht⟩ := State.exists_current_of_pending hpending
  obtain ⟨s', hs'⟩ := exists_step_next ht (State.wellFormed_iff.mp h t (State.current_mem ht))
  obtain ⟨hnil, -⟩ | hconcludes := step_cases hs'
  · exact absurd hnil hpending
  · obtain ⟨⟨resp, hresp⟩, herase, hcfg⟩ := hconcludes.frame
    exact ⟨s', resp, hs', hresp, herase, hcfg, State.wellFormed_of_eraseIdx h herase⟩

/-- Settles O10: with nothing in progress a step idles; otherwise it ends a transaction. -/
theorem wellFormedStatesAlwaysStep : Obligations.WellFormedStatesAlwaysStep := by
  intro s h
  by_cases hpending : s.pending = []
  · exact ⟨s.idle, stepIdlesWithoutATransaction s hpending, h⟩
  · obtain ⟨s', -, hstep, -, -, -, hwf⟩ := exists_step_of_wellFormed h hpending
    exact ⟨s', hstep, hwf⟩

/-! ## Runs -/

/-- `k` steps of a well-formed state with at least `k` transactions in progress end `k` of them. -/
theorem exists_run_of_wellFormed : ∀ (k : Nat) {s : State}, s.wellFormed = true → k ≤ s.pending.length →
    ∃ a : State, Sys2Proof.core.run k s = .next a ∧ a.wellFormed = true ∧
      a.pending.length + k = s.pending.length ∧ a.config = s.config
  | 0, s, h, _ => ⟨s, rfl, h, rfl, rfl⟩
  | k + 1, s, h, hk => by
    have hpending : s.pending ≠ [] := List.ne_nil_of_length_pos (by omega)
    obtain ⟨s', -, hstep, -, herase, hcfg, hwf⟩ := exists_step_of_wellFormed h hpending
    have hlength : s'.pending.length + 1 = s.pending.length := by
      rw [herase, List.length_eraseIdx_add_one (State.turn_lt hpending)]
    obtain ⟨a, hrun, hawf, halength, hacfg⟩ := exists_run_of_wellFormed k hwf (by omega)
    exact ⟨a, (run_succ hstep).trans hrun, hawf, by omega, hacfg.trans hcfg⟩

/-- Settles O13: `k` steps end `k` transactions, so the next one has a transaction to end while `k` is below
their number, and none is left after as many steps. -/
theorem everyTransactionEnds : Obligations.EveryTransactionEnds := by
  refine fun s h => ⟨fun k hk => ?_, ?_⟩
  · obtain ⟨a, hrun, hwf, hlength, -⟩ := exists_run_of_wellFormed k h hk.le
    obtain ⟨b, resp, hstep, hresp, herase, -, -⟩ :=
      exists_step_of_wellFormed hwf (List.ne_nil_of_length_pos (by omega))
    exact ⟨a, b, resp, hrun, hlength, hstep, hresp, herase⟩
  · obtain ⟨a, hrun, -, hlength, hcfg⟩ := exists_run_of_wellFormed s.pending.length h le_rfl
    exact ⟨a, hrun, List.eq_nil_of_length_eq_zero (by omega), hcfg⟩

/-! ## The interface -/

/-- Settles O12: what `present` accepts lacks no field, so the appended transaction is well formed. -/
theorem presentKeepsWellFormed : Obligations.PresentKeepsWellFormed := by
  intro s s' r h hpresent
  obtain ⟨f, -, hrefused⟩ | ⟨hmissing, haccepted⟩ := present_cases s r
  · cases hrefused.symm.trans hpresent
  · cases haccepted.symm.trans hpresent
    have hr : r.wellFormed = true := r.missing_eq_none_iff.mp hmissing
    exact ⟨by simpa [State.wellFormed, hr] using h, rfl, rfl⟩

theorem requireField_eq_error_iff {α : Type} {field f : OperandField} {v : Option α} :
    requireField field v = .error f ↔ v = none ∧ field = f := by
  cases v <;> simp [requireField]

theorem missingField_eq_some_iff {α : Type} {x : Except OperandField α} {f : OperandField} :
    missingField x = some f ↔ x = .error f := by
  cases x <;> simp [missingField]

section
variable {r : Request} {f : OperandField}

/-- The fields that DECODE asks for, in its order (log 8). -/
theorem decodeOperands_eq_error (h : decodeOperands r = .error f) :
    (r.data = none ∧ .data = f) ∨ (r.width = none ∧ .width = f) ∨ (r.height = none ∧ .height = f) := by
  unfold decodeOperands at h
  split at h
  case h_1 hd => cases h; exact .inl (requireField_eq_error_iff.mp hd)
  case h_2 =>
    split at h
    case h_1 hw => cases h; exact .inr (.inl (requireField_eq_error_iff.mp hw))
    case h_2 =>
      split at h
      case h_1 hh => cases h; exact .inr (.inr (requireField_eq_error_iff.mp hh))
      case h_2 => cases h

/-- The fields that CODE2NAME asks for, in its order (log 8). -/
theorem codeBitsOperand_eq_error (h : codeBitsOperand r = .error f) :
    (r.colorBits = none ∧ .colorBits = f) ∨ (r.sizeBits = none ∧ .sizeBits = f) := by
  unfold codeBitsOperand at h
  split at h
  case h_1 hc => cases h; exact .inl (requireField_eq_error_iff.mp hc)
  case h_2 =>
    split at h
    case h_1 hz => cases h; exact .inr (requireField_eq_error_iff.mp hz)
    case h_2 => cases h

/-- The field named as missing is one that the request lacks (60_exceptions.md R171). -/
theorem Request.lacks_of_missing (h : r.missing = some f) : Lacks r f := by
  unfold Request.missing at h
  split at h
  case h_2 => cases h
  case h_1 o ho =>
    have hop : r.op = o.selector := Operation.ofSelector_eq_some_iff.mp ho
    cases o with
    | encode =>
      obtain ⟨hp, rfl⟩ := requireField_eq_error_iff.mp (missingField_eq_some_iff.mp h)
      exact ⟨hop, hp⟩
    | decode =>
      obtain ⟨hnone, rfl⟩ | ⟨hnone, rfl⟩ | ⟨hnone, rfl⟩ :=
        decodeOperands_eq_error (missingField_eq_some_iff.mp h) <;> exact ⟨hop, hnone⟩
    | bitsPerPixel => cases h
    | nameToCode =>
      obtain ⟨hn, rfl⟩ := requireField_eq_error_iff.mp (missingField_eq_some_iff.mp h)
      exact ⟨hop, hn⟩
    | codeToName =>
      obtain ⟨hnone, rfl⟩ | ⟨hnone, rfl⟩ :=
        codeBitsOperand_eq_error (missingField_eq_some_iff.mp h) <;> exact ⟨hop, hnone⟩

/-- Well-formedness by operation, for a request whose selector is one. -/
theorem Request.wellFormed_of_op {o : Operation} (hop : r.op = o.selector) : r.wellFormed =
    match o with
    | .encode => r.pixels.isSome
    | .decode => r.data.isSome && r.width.isSome && r.height.isSome
    | .bitsPerPixel => true
    | .nameToCode => r.name.isSome
    | .codeToName => r.colorBits.isSome && r.sizeBits.isSome := by
  rw [Request.wellFormed, Operation.ofSelector_eq_some_iff.mpr hop]
  cases o <;> rfl

/-- A request that lacks a field has a missing field, not always the same one (log 8). -/
theorem Request.exists_missing_of_lacks (h : Lacks r f) : ∃ g, r.missing = some g := by
  rw [← Option.ne_none_iff_exists', ne_eq, r.missing_eq_none_iff]
  cases f with
  | pixels => obtain ⟨hop, hv⟩ := h; simp [Request.wellFormed_of_op (o := .encode) hop, hv]
  | data | width | height =>
    obtain ⟨hop, hv⟩ := h; simp [Request.wellFormed_of_op (o := .decode) hop, hv]
  | name => obtain ⟨hop, hv⟩ := h; simp [Request.wellFormed_of_op (o := .nameToCode) hop, hv]
  | colorBits | sizeBits =>
    obtain ⟨hop, hv⟩ := h; simp [Request.wellFormed_of_op (o := .codeToName) hop, hv]

end

/-- Settles O8: step and `present` refuse by the same missing field, and a palette is none. -/
theorem missingOperandIsRefused : Obligations.MissingOperandIsRefused := by
  refine fun s t ht => ⟨fun ⟨_, hlacks⟩ => ?_, fun hop hd hw hh => exists_step_next ht ?_⟩
  · obtain ⟨f, hf⟩ := Request.exists_missing_of_lacks hlacks
    obtain ⟨res, hres⟩ := step_settles s.config t.request
    refine ⟨f, Request.lacks_of_missing hf, ?_, ?_⟩
    · rw [hres s t ht rfl rfl, hf, settle]
    · rw [State.present, hf]
  · rw [Request.wellFormed_of_op (o := .decode) hop, hd, hw, hh]
    rfl

/-! ## The statuses -/

/-- Settles O17. -/
theorem statusNumbersAreZeroToSix : Obligations.StatusNumbersAreZeroToSix :=
  ⟨fun _ => ⟨rfl, rfl⟩, fun _ => rfl, fun _ _ => rfl, fun _ _ _ => rfl, fun _ _ => rfl, fun _ => rfl,
    fun _ _ _ => rfl, fun _ => rfl⟩

end Sys2Proof.Machine
end

section
/-! The order of the errors (60_exceptions.md R172): a step reports the first, in the order of the status
numbers, of the errors whose condition holds of the request. -/

namespace Sys2Proof.Machine

open Sys2Proof.Claims (Answers codes groups bppTable DimsAre NibbleIs ByteIs IndexAt Condition)

/-! ## Reporting the first error -/

/-- `resp` reports the first, by number, of the errors whose condition `C` says holds, and OK where none does;
a palette index error names no pixel above one that `OutOf` holds of. -/
structure ReportsFirst (C : Status → Prop) (OutOf : Nat → Prop) (resp : Response) : Prop where
  sound : resp.status ≠ .ok → C resp.status
  first : ∀ st, C st → resp.status ≠ .ok ∧ resp.status.number ≤ st.number
  firstPixel : ∀ i v l, resp = .error (.paletteIndex i v l) → ∀ k, OutOf k → i ≤ k

theorem ErrorReport.status_ne_ok (e : ErrorReport) : e.status ≠ .ok := by
  cases e <;> nofun

section
variable {C : Status → Prop} {OutOf : Nat → Prop} {e : ErrorReport}

theorem ReportsFirst.of_ok {v : Result} (h : ∀ st, ¬ C st) : ReportsFirst C OutOf (.ok v) :=
  ⟨fun hne => absurd rfl hne, fun st hst => absurd hst (h st), nofun⟩

/-- An error other than E_PALETTE_INDEX is reported first where its condition holds and none before it. -/
theorem ReportsFirst.of_error {st₀ : Status} (he : e.status = st₀) (hC : C st₀)
    (hfirst : ∀ st, C st → st₀.number ≤ st.number) (hpixel : st₀ ≠ .paletteIndex) :
    ReportsFirst C OutOf (.error e) := by
  subst he
  refine ⟨fun _ => hC, fun st hst => ⟨e.status_ne_ok, hfirst st hst⟩, fun _ _ _ he _ _ => ?_⟩
  cases he
  exact absurd rfl hpixel

/-- E_PALETTE_INDEX is reported first where no other condition holds, for the first of the pixels. -/
theorem ReportsFirst.of_paletteIndex {k v l : Nat} (hC : C .paletteIndex)
    (honly : ∀ st, C st → st = .paletteIndex) (hpixel : ∀ j, OutOf j → k ≤ j) :
    ReportsFirst C OutOf (.error (.paletteIndex k v l)) :=
  ⟨fun _ => hC, fun st hst => ⟨nofun, by rw [honly st hst]; exact le_rfl⟩, fun _ _ _ he j hj => by
    cases he; exact hpixel j hj⟩

end

/-! ## The conditions by operation -/

/-- The pixel groups of the statements are the model's, and the reserved codes have none. -/
theorem mem_groups_iff {fmt : Byte} {g : Nat} : (fmt, g) ∈ groups ↔ fmt ∈ codes ∧ groupSize fmt = g := by
  have listed : ∀ e ∈ groups, e.1 ∈ codes ∧ groupSize e.1 = e.2 := by decide
  have lists : ∀ c ∈ codes, (c, groupSize c) ∈ groups := by decide
  exact ⟨listed (fmt, g), fun ⟨hfmt, hg⟩ => hg ▸ lists fmt hfmt⟩

theorem mem_bppTable_iff {fmt : Byte} {b : Nat} : (fmt, b) ∈ bppTable ↔ fmt ∈ codes ∧ bpp fmt = b := by
  have listed : ∀ e ∈ bppTable, e.1 ∈ codes ∧ bpp e.1 = e.2 := by decide
  exact ⟨listed (fmt, b), fun ⟨hfmt, hb⟩ => hb ▸ bpp_mem_bppTable fmt hfmt⟩

/-- The conditions of R170 as the checks of ENCODE on its operand (41_encode.md R110). -/
def EncodeError (cfg : Config) (fmt : Byte) (p : PixelBuffer) : Status → Prop
  | .unsupportedFormat => fmt ∉ codes ∨ fmt = 0x40#8 ∨ fmt = 0x48#8
  | .dimension => fmt ∈ codes ∧ badDimension cfg fmt p.width p.height = true
  | .length => p.pixels.length ≠ p.count
  | .ok | .illegalOp | .missingPalette | .paletteIndex => False

/-- Pixel `k` of a DECODE of CI4 or CI8 has an index outside the palette (42_decode.md R151). -/
def Request.OutOfPalette (r : Request) (k : Nat) : Prop :=
  ∃ pal, r.palette = some pal ∧ ∃ u, IndexAt r k u ∧ pal.length ≤ u

/-- The conditions of R170 as the checks of DECODE on its operands (42_decode.md R140). -/
def DecodeError (cfg : Config) (r : Request) (d : List Byte) (w h : Nat) : Status → Prop
  | .unsupportedFormat => r.fmt ∉ codes
  | .dimension => r.fmt ∈ codes ∧ badDimension cfg r.fmt w h = true
  | .length => r.fmt ∈ codes ∧ d.length ≠ packedLen r.fmt w h
  | .missingPalette => (r.fmt = 0x40#8 ∨ r.fmt = 0x48#8) ∧ r.palette = none
  | .paletteIndex => ∃ k, r.OutOfPalette k
  | .ok | .illegalOp => False

section
variable {cfg : Config} {r : Request} {st : Status}

/-- The dimension condition of a request whose W and H are known. -/
theorem condition_dimension_iff {w h : Nat} (hdims : ∀ w' h', DimsAre r w' h' ↔ w = w' ∧ h = h') :
    Condition cfg r .dimension ↔ r.fmt ∈ codes ∧ badDimension cfg r.fmt w h = true := by
  simp only [Condition, hdims, mem_groups_iff, badDimension_iff_badDims]
  constructor
  · rintro ⟨_, _, _, ⟨rfl, rfl⟩, ⟨hfmt, rfl⟩, hbad⟩
    exact ⟨hfmt, hbad⟩
  · rintro ⟨hfmt, hbad⟩
    exact ⟨w, h, _, ⟨rfl, rfl⟩, ⟨hfmt, rfl⟩, hbad⟩

theorem condition_encode_iff {p : PixelBuffer} (hop : r.op = 0x01#8) (hp : r.pixels = some p) :
    Condition cfg r st ↔ EncodeError cfg r.fmt p st := by
  cases st with
  | dimension => exact condition_dimension_iff fun w h => by simp [DimsAre, hop, hp]
  | ok | illegalOp | unsupportedFormat | length | missingPalette | paletteIndex =>
    simp [Condition, EncodeError, hop, hp, PixelBuffer.count]

theorem condition_decode_iff {d : List Byte} {w h : Nat} (hop : r.op = 0x02#8) (hd : r.data = some d)
    (hw : r.width = some w) (hh : r.height = some h) :
    Condition cfg r st ↔ DecodeError cfg r d w h st := by
  cases st with
  | dimension => exact condition_dimension_iff fun w h => by simp [DimsAre, hop, hw, hh]
  | length =>
    constructor
    · rintro (⟨hop', -⟩ | ⟨-, _, _, _, _, hd', hw', hh', hb, hlen⟩)
      · exact absurd (hop.symm.trans hop') (by decide)
      · cases hd.symm.trans hd'
        cases hw.symm.trans hw'
        cases hh.symm.trans hh'
        obtain ⟨hfmt, rfl⟩ := mem_bppTable_iff.mp hb
        exact ⟨hfmt, hlen⟩
    · rintro ⟨hfmt, hlen⟩
      exact .inr ⟨hop, d, w, h, _, hd, hw, hh, mem_bppTable_iff.mpr ⟨hfmt, rfl⟩, hlen⟩
  | paletteIndex =>
    exact ⟨fun ⟨_, d, w, h, pal, k, v, hd, hw, hh, hpal, hk, hv, hindex⟩ =>
        ⟨k, pal, hpal, v, ⟨d, w, h, hd, hw, hh, hk, hindex⟩, hv⟩,
      fun ⟨k, pal, hpal, v, ⟨d, w, h, hd, hw, hh, hk, hindex⟩, hv⟩ =>
        ⟨hop, d, w, h, pal, k, v, hd, hw, hh, hpal, hk, hv, hindex⟩⟩
  | ok | illegalOp | unsupportedFormat | missingPalette => simp [Condition, DecodeError, hop]

/-- A request that is neither an ENCODE nor a DECODE has no error but a reserved selector. -/
theorem condition_of_not_encode_decode (h1 : r.op ≠ 0x01#8) (h2 : r.op ≠ 0x02#8) :
    Condition cfg r st ↔ st = .illegalOp ∧ (r.op = 0x00#8 ∨ 6 ≤ r.op.toNat) := by
  cases st <;> simp [Condition, DimsAre, h1, h2]

end

/-! ## ENCODE -/

/-- The checks of ENCODE stand in the order of R172. -/
theorem encodeBody_reportsFirst {cfg : Config} {fmt : Byte} {pack : PixelBuffer → List Byte}
    {p : PixelBuffer} {OutOf : Nat → Prop} (hfmt : ¬ (fmt ∉ codes ∨ fmt = 0x40#8 ∨ fmt = 0x48#8)) :
    ReportsFirst (EncodeError cfg fmt p) OutOf (.ofComputed (encodeBody cfg fmt pack p)) := by
  have hcode : fmt ∈ codes := not_not.mp fun h => hfmt (.inl h)
  rcases encodeBody_cases cfg fmt pack p with ⟨hbad, h⟩ | ⟨hgood, hlen, h⟩ | ⟨hgood, hlen, h⟩ <;> rw [h]
  · refine .of_error (st₀ := .dimension) rfl ⟨hcode, hbad⟩ (fun st hst => ?_) nofun
    cases st with
    | unsupportedFormat => exact absurd hst hfmt
    | dimension | length => decide
    | ok | illegalOp | missingPalette | paletteIndex => exact hst.elim
  · refine .of_error (st₀ := .length) rfl hlen (fun st hst => ?_) nofun
    cases st with
    | unsupportedFormat => exact absurd hst hfmt
    | dimension => exact absurd hst.2 (Bool.eq_false_iff.mp hgood)
    | length => decide
    | ok | illegalOp | missingPalette | paletteIndex => exact hst.elim
  · refine .of_ok fun st hst => ?_
    cases st with
    | unsupportedFormat => exact hfmt hst
    | dimension => exact absurd hst.2 (Bool.eq_false_iff.mp hgood)
    | length => exact hst hlen
    | ok | illegalOp | missingPalette | paletteIndex => exact hst

/-! ## DECODE -/

/-- The lookups of all pixels succeed, or fail at the first pixel whose index is outside the palette. -/
theorem palLookups_range_cases (pal : List Half) (index : Nat → Nat) (n : Nat) :
    ((∀ k < n, index k < pal.length) ∧ ∃ px, palLookups pal index (List.range n) = .ok px) ∨
    ∃ k < n, pal.length ≤ index k ∧ (∀ j < k, index j < pal.length) ∧
      palLookups pal index (List.range n) = .error (.paletteIndex k (index k) pal.length) := by
  by_cases hin : ∀ k < n, index k < pal.length
  · obtain ⟨px, hpx, -⟩ := palLookups_ok (pal := pal) (index := index) (l := List.range n)
      fun k hk => hin k (List.mem_range.mp hk)
    exact .inl ⟨hin, px, hpx⟩
  · have hex : ∃ k, k < n ∧ pal.length ≤ index k := by
      push Not at hin
      exact hin
    obtain ⟨hk, hout⟩ := Nat.find_spec hex
    have hfirst : ∀ j < Nat.find hex, index j < pal.length := fun j hj =>
      not_le.mp fun hle => Nat.find_min hex hj ⟨hj.trans hk, hle⟩
    refine .inr ⟨Nat.find hex, hk, hout, hfirst, palLookups_error (List.getElem?_range hk) hout ?_⟩
    intro m j hm hj
    obtain rfl : m = j := by simpa [hm.trans hk] using hj
    exact hfirst m hm

/-- The palette index that DECODE reads for a pixel of CI4, and for one of CI8 (42_decode.md R152, R153). -/
def packedIndex (fmt : Byte) (d : List Byte) (k : Nat) : Nat :=
  if fmt = 0x40#8 then (nibbleField d k).toNat else (memRead d k 1).toNat

section
variable {cfg : Config} {r : Request} {d : List Byte} {w h : Nat} (hd : r.data = some d)
  (hw : r.width = some w) (hh : r.height = some h)

/-- In data of the right length, the index of the statements is the one that is read. -/
theorem packedIndex_iff {fmt : Byte} {k v : Nat} (hfmt : fmt = 0x40#8 ∨ fmt = 0x48#8)
    (hlen : d.length = packedLen fmt w h) (hk : k < w * h) :
    (fmt = 0x40#8 ∧ NibbleIs d k v) ∨ (fmt = 0x48#8 ∧ ByteIs d k v) ↔ packedIndex fmt d k = v := by
  rcases hfmt with rfl | rfl
  · have hlen : d.length = (w * h * 4 + 7) / 8 := hlen
    rw [nibbleIs_iff (by omega)]
    simp [packedIndex]
  · have hlen : d.length = (w * h * 8 + 7) / 8 := hlen
    rw [byteIs_iff (by omega)]
    simp [packedIndex]

include hd hw hh

theorem outOfPalette_iff (hfmt : r.fmt = 0x40#8 ∨ r.fmt = 0x48#8) (hlen : d.length = packedLen r.fmt w h)
    {k : Nat} : r.OutOfPalette k ↔
      ∃ pal, r.palette = some pal ∧ k < w * h ∧ pal.length ≤ packedIndex r.fmt d k := by
  constructor
  · rintro ⟨pal, hpal, u, ⟨_, _, _, hd', hw', hh', hk, hindex⟩, hout⟩
    cases hd.symm.trans hd'
    cases hw.symm.trans hw'
    cases hh.symm.trans hh'
    rw [packedIndex_iff hfmt hlen hk] at hindex
    exact ⟨pal, hpal, hk, hindex ▸ hout⟩
  · rintro ⟨pal, hpal, hk, hout⟩
    exact ⟨pal, hpal, _, ⟨d, w, h, hd, hw, hh, hk, (packedIndex_iff hfmt hlen hk).mpr rfl⟩, hout⟩

end

section
variable {cfg : Config} {r : Request} {d : List Byte} {w h : Nat} {st : Status}

/-- Only the color-indexed codes have pixels with an index. -/
theorem Request.OutOfPalette.fmt {k : Nat} (hout : r.OutOfPalette k) : r.fmt = 0x40#8 ∨ r.fmt = 0x48#8 := by
  obtain ⟨_, -, _, ⟨_, _, _, -, -, -, -, hindex⟩, -⟩ := hout
  exact hindex.imp And.left And.left

/-- What is left of the conditions where the checks before the palette pass. -/
theorem DecodeError.of_passes (hcode : r.fmt ∈ codes) (hgood : badDimension cfg r.fmt w h = false)
    (hlen : d.length = packedLen r.fmt w h) (hst : DecodeError cfg r d w h st) :
    (st = .missingPalette ∧ (r.fmt = 0x40#8 ∨ r.fmt = 0x48#8) ∧ r.palette = none) ∨
    (st = .paletteIndex ∧ ∃ k, r.OutOfPalette k) := by
  cases st with
  | unsupportedFormat => exact absurd hcode hst
  | dimension => exact absurd hst.2 (Bool.eq_false_iff.mp hgood)
  | length => exact absurd hlen hst.2
  | missingPalette => exact .inl ⟨rfl, hst⟩
  | paletteIndex => exact .inr ⟨rfl, hst⟩
  | ok | illegalOp => exact hst.elim

/-- The checks that come before the palette stand in the order of R172, so it is enough to look at what
unpacking gives where they pass. -/
theorem decodeBody_reportsFirst {unpack : DecodeOperands → Except ErrorReport (List Pixel)}
    (hcode : r.fmt ∈ codes)
    (herror : d.length = packedLen r.fmt w h → badDimension cfg r.fmt w h = false →
      ∀ e, unpack ⟨d, w, h, r.palette⟩ = .error e →
        ReportsFirst (DecodeError cfg r d w h) r.OutOfPalette (.error e))
    (hok : d.length = packedLen r.fmt w h → badDimension cfg r.fmt w h = false →
      ∀ px, unpack ⟨d, w, h, r.palette⟩ = .ok px → ∀ st, ¬ DecodeError cfg r d w h st) :
    ReportsFirst (DecodeError cfg r d w h) r.OutOfPalette
      (.ofComputed (decodeBody cfg r.fmt unpack ⟨d, w, h, r.palette⟩)) := by
  rcases decodeBody_cases cfg r.fmt unpack ⟨d, w, h, r.palette⟩ with
    ⟨hbad, hbody⟩ | ⟨hgood, hlen, hbody⟩ | ⟨hgood, hlen, ⟨e, he, hbody⟩ | ⟨px, hpx, hbody⟩⟩ <;> rw [hbody]
  · refine .of_error (st₀ := .dimension) rfl ⟨hcode, hbad⟩ (fun st hst => ?_) nofun
    cases st with
    | unsupportedFormat => exact absurd hcode hst
    | dimension | length | missingPalette | paletteIndex => decide
    | ok | illegalOp => exact hst.elim
  · refine .of_error (st₀ := .length) rfl ⟨hcode, hlen⟩ (fun st hst => ?_) nofun
    cases st with
    | unsupportedFormat => exact absurd hcode hst
    | dimension => exact absurd hst.2 (Bool.eq_false_iff.mp hgood)
    | length | missingPalette | paletteIndex => decide
    | ok | illegalOp => exact hst.elim
  · exact herror hlen hgood e he
  · exact .of_ok (hok hlen hgood px hpx)

/-- A DECODE that reads no palette has no error once the dimensions and the length pass. -/
theorem decodeBody_unpackEach_reportsFirst {pixel : List Byte → Nat → Pixel} (hcode : r.fmt ∈ codes)
    (hplain : ¬ (r.fmt = 0x40#8 ∨ r.fmt = 0x48#8)) :
    ReportsFirst (DecodeError cfg r d w h) r.OutOfPalette
      (.ofComputed (decodeBody cfg r.fmt (unpackEach pixel) ⟨d, w, h, r.palette⟩)) := by
  refine decodeBody_reportsFirst hcode (fun _ _ _ he => nomatch he) fun hlen hgood _ _ st hst => ?_
  obtain ⟨-, hindexed, -⟩ | ⟨-, k, hout⟩ := hst.of_passes hcode hgood hlen
  · exact hplain hindexed
  · exact hplain hout.fmt

/-- A DECODE through the palette asks for the palette, then looks its pixels up in order. -/
theorem decodeBody_unpackIndexed_reportsFirst (hd : r.data = some d) (hw : r.width = some w)
    (hh : r.height = some h) (hcode : r.fmt ∈ codes) (hindexed : r.fmt = 0x40#8 ∨ r.fmt = 0x48#8) :
    ReportsFirst (DecodeError cfg r d w h) r.OutOfPalette
      (.ofComputed (decodeBody cfg r.fmt (unpackIndexed r.fmt (packedIndex r.fmt)) ⟨d, w, h, r.palette⟩)) := by
  refine decodeBody_reportsFirst hcode (fun hlen hgood e he => ?_) fun hlen hgood px hpx st hst => ?_
  · cases hpal : r.palette with
    | none =>
      rw [hpal] at he
      cases he
      refine .of_error (st₀ := .missingPalette) rfl ⟨hindexed, hpal⟩ (fun st hst => ?_) nofun
      obtain ⟨rfl, -⟩ | ⟨rfl, -⟩ := hst.of_passes hcode hgood hlen <;> decide
    | some pal =>
      rw [hpal, unpackIndexed_of_palette] at he
      obtain ⟨-, px, hpx⟩ | ⟨k, hk, hout, hfirst, hlookups⟩ :=
        palLookups_range_cases pal (packedIndex r.fmt d) (w * h)
      · cases hpx.symm.trans he
      cases hlookups.symm.trans he
      have hcondition : r.OutOfPalette k := (outOfPalette_iff hd hw hh hindexed hlen).mpr ⟨pal, hpal, hk, hout⟩
      refine .of_paletteIndex ⟨k, hcondition⟩ (fun st hst => ?_) fun j hj => ?_
      · obtain ⟨-, -, hnone⟩ | ⟨hst, -⟩ := hst.of_passes hcode hgood hlen
        · cases hpal.symm.trans hnone
        · exact hst
      · obtain ⟨_, hpal', -, hle⟩ := (outOfPalette_iff hd hw hh hindexed hlen).mp hj
        cases hpal.symm.trans hpal'
        exact not_lt.mp fun hjk => absurd (hfirst j hjk) (not_lt.mpr hle)
  · obtain ⟨-, -, hnone⟩ | ⟨-, k, hk⟩ := hst.of_passes hcode hgood hlen
    · rw [hnone] at hpx
      cases hpx
    · obtain ⟨pal, hpal, hk, hout⟩ := (outOfPalette_iff hd hw hh hindexed hlen).mp hk
      rw [hpal, unpackIndexed_of_palette] at hpx
      obtain ⟨hin, -⟩ | ⟨_, -, -, -, hlookups⟩ := palLookups_range_cases pal (packedIndex r.fmt d) (w * h)
      · exact absurd (hin k hk) (not_lt.mpr hout)
      · cases hlookups.symm.trans hpx

end

/-! ## The step -/

/-- The response of a step reports the first error of the request. -/
def StepReportsFirst (s : State) (r : Request) : Prop := ∃ resp, deliveredBy (step s) = some resp ∧
  ReportsFirst (Condition s.config r) r.OutOfPalette resp

/-- The three catalog operations meet no condition, and answer OK. -/
theorem stepReportsFirst_catalog {s : State} {r : Request}
    (hop : r.op = 0x03#8 ∨ r.op = 0x04#8 ∨ r.op = 0x05#8) {v : Result}
    (hok : deliveredBy (step s) = some (.ok v)) : StepReportsFirst s r := by
  have hother : ∀ op : Byte, op = 0x03#8 ∨ op = 0x04#8 ∨ op = 0x05#8 →
      op ≠ 0x01#8 ∧ op ≠ 0x02#8 ∧ ¬ (op = 0x00#8 ∨ 6 ≤ op.toNat) := by decide
  obtain ⟨h1, h2, hselects⟩ := hother r.op hop
  refine ⟨_, hok, .of_ok fun st hst => ?_⟩
  obtain ⟨-, hreserved⟩ := (condition_of_not_encode_decode h1 h2).mp hst
  exact hselects hreserved

section
variable {s : State} {r : Request} (hs : s.Serves r)
include hs

theorem deliveredBy_step_of_serve {α : Type} {operands : Request → Except OperandField α}
    {body : α → Except ErrorReport Result} {v : α} (hstep : step s = serve operands body s)
    (hv : operands r = .ok v) : deliveredBy (step s) = some (.ofComputed (body v)) := by
  rw [hstep, serve_of_serves hs hv]
  exact State.conclude_response _ _

theorem deliveredBy_step_of_answers {i : Instr} {resp : Response} (hi : decode (r.op ++ r.fmt) = .instr i)
    (h : Answers i s resp) : deliveredBy (step s) = some resp := by
  have hexec : exec i s = .next (s.answer resp) := h
  rw [step, hs.fetch, hi]
  simp only [hexec]
  rfl

theorem step_encode_unsupported (hop : r.op = 0x01#8)
    (hfmt : r.fmt ∉ codes ∨ r.fmt = 0x40#8 ∨ r.fmt = 0x48#8) : step s = serveEncodeUnsupported r.fmt s := by
  rcases hfmt with hreserved | h40 | h48
  · rw [step, hs.fetch, hop, decode_reservedEncodeFormat r.fmt hreserved]
  · rw [step, hs.fetch, hop, h40, decode_encCi4]
    rfl
  · rw [step, hs.fetch, hop, h48, decode_encCi8]
    rfl

theorem exists_step_encode (hop : r.op = 0x01#8)
    (hfmt : ¬ (r.fmt ∉ codes ∨ r.fmt = 0x40#8 ∨ r.fmt = 0x48#8)) :
    ∃ pack, step s = serveEncode r.fmt pack s := by
  push Not at hfmt
  obtain ⟨hcode, h40, h48⟩ := hfmt
  obtain ⟨pack, _, codec⟩ := exists_pixelCodec s.config hcode h40 h48
  obtain ⟨i, hi, hexec⟩ := codec.encodes
  refine ⟨pack, ?_⟩
  rw [step, hs.fetch, hop, hi]
  exact congrFun hexec s

theorem exists_step_decode (hop : r.op = 0x02#8) (hcode : r.fmt ∈ codes)
    (hplain : ¬ (r.fmt = 0x40#8 ∨ r.fmt = 0x48#8)) :
    ∃ pixel, step s = serveDecode r.fmt (unpackEach pixel) s := by
  push Not at hplain
  obtain ⟨h40, h48⟩ := hplain
  obtain ⟨_, pixel, codec⟩ := exists_pixelCodec s.config hcode h40 h48
  obtain ⟨i, hi, hexec⟩ := codec.decodes
  refine ⟨pixel, ?_⟩
  rw [step, hs.fetch, hop, hi]
  exact hexec s rfl

theorem step_decode_indexed (hop : r.op = 0x02#8) (hindexed : r.fmt = 0x40#8 ∨ r.fmt = 0x48#8) :
    step s = serveDecode r.fmt (unpackIndexed r.fmt (packedIndex r.fmt)) s := by
  rcases hindexed with h40 | h48
  · rw [step, hs.fetch, hop, h40, decode_decCi4]
    rfl
  · rw [step, hs.fetch, hop, h48, decode_decCi8]
    rfl

theorem stepReportsFirst_encode (hop : r.op = 0x01#8) {p : PixelBuffer} (hp : r.pixels = some p) :
    StepReportsFirst s r := by
  have hcondition : Condition s.config r = EncodeError s.config r.fmt p :=
    funext fun _ => propext (condition_encode_iff hop hp)
  rw [StepReportsFirst, hcondition]
  by_cases hfmt : r.fmt ∉ codes ∨ r.fmt = 0x40#8 ∨ r.fmt = 0x48#8
  · refine ⟨_, deliveredBy_step_of_serve hs (step_encode_unsupported hs hop hfmt) (encodeOperand_of hp),
      .of_error (st₀ := .unsupportedFormat) rfl hfmt (fun st hst => ?_) nofun⟩
    cases st with
    | ok | illegalOp => exact hst.elim
    | unsupportedFormat | dimension | length | missingPalette | paletteIndex => decide
  · obtain ⟨pack, hstep⟩ := exists_step_encode hs hop hfmt
    exact ⟨_, deliveredBy_step_of_serve hs hstep (encodeOperand_of hp), encodeBody_reportsFirst hfmt⟩

theorem stepReportsFirst_decode (hop : r.op = 0x02#8) {d : List Byte} {w h : Nat} (hd : r.data = some d)
    (hw : r.width = some w) (hh : r.height = some h) : StepReportsFirst s r := by
  have hcondition : Condition s.config r = DecodeError s.config r d w h :=
    funext fun _ => propext (condition_decode_iff hop hd hw hh)
  have hoperands := decodeOperands_of hd hw hh
  rw [StepReportsFirst, hcondition]
  by_cases hcode : r.fmt ∈ codes
  · by_cases hindexed : r.fmt = 0x40#8 ∨ r.fmt = 0x48#8
    · exact ⟨_, deliveredBy_step_of_serve hs (step_decode_indexed hs hop hindexed) hoperands,
        decodeBody_unpackIndexed_reportsFirst hd hw hh hcode hindexed⟩
    · obtain ⟨pixel, hstep⟩ := exists_step_decode hs hop hcode hindexed
      exact ⟨_, deliveredBy_step_of_serve hs hstep hoperands,
        decodeBody_unpackEach_reportsFirst hcode hindexed⟩
  · have hstep : step s = serveDecodeUnsupported r.fmt s := by
      rw [step, hs.fetch, hop, decode_reservedDecodeFormat r.fmt hcode]
    refine ⟨_, deliveredBy_step_of_serve hs hstep hoperands,
      .of_error (st₀ := .unsupportedFormat) rfl hcode (fun st hst => ?_) nofun⟩
    cases st with
    | ok | illegalOp => exact hst.elim
    | unsupportedFormat | dimension | length | missingPalette | paletteIndex => decide

theorem stepReportsFirst_illegalOp (hop : r.op = 0x00#8 ∨ 6 ≤ r.op.toNat) : StepReportsFirst s r := by
  have hother : ∀ op : Byte, op = 0x00#8 ∨ 6 ≤ op.toNat → op ≠ 0x01#8 ∧ op ≠ 0x02#8 := by decide
  obtain ⟨h1, h2⟩ := hother r.op hop
  obtain ⟨hillegal, -⟩ := reservedCommandsAnswerTheirError s r
  refine ⟨_, by rw [hillegal hs hop]; rfl, .of_error (st₀ := .illegalOp) rfl
    ((condition_of_not_encode_decode h1 h2).mpr ⟨rfl, hop⟩) (fun st hst => ?_) nofun⟩
  obtain ⟨rfl, -⟩ := (condition_of_not_encode_decode h1 h2).mp hst
  exact le_rfl

theorem stepReportsFirst_of_wellFormed (hwf : r.wellFormed = true) : StepReportsFirst s r := by
  cases ho : Operation.ofSelector r.op with
  | none =>
    exact stepReportsFirst_illegalOp hs
      ((Operation.ofSelector_eq_none_iff.mp ho).imp_left fun h0 => BitVec.eq_of_toNat_eq h0)
  | some o =>
    have hop : r.op = o.selector := Operation.ofSelector_eq_some_iff.mp ho
    have hdecode {i : Instr} (hi : encodeFields i = (r.op, r.fmt)) : decode (r.op ++ r.fmt) = .instr i :=
      decode_append_eq_iff.mpr hi
    rw [Request.wellFormed_of_op hop] at hwf
    cases o with
    | encode =>
      obtain ⟨p, hp⟩ := Option.isSome_iff_exists.mp hwf
      exact stepReportsFirst_encode hs hop hp
    | decode =>
      simp only [Bool.and_eq_true, Option.isSome_iff_exists] at hwf
      obtain ⟨⟨⟨d, hd⟩, w, hw⟩, h, hh⟩ := hwf
      exact stepReportsFirst_decode hs hop hd hw hh
    | bitsPerPixel =>
      exact stepReportsFirst_catalog (.inl hop) <| deliveredBy_step_of_answers hs
        (hdecode (i := .bpp r.fmt) (by rw [hop]; rfl)) (bpp_answers hs r.fmt)
    | nameToCode =>
      obtain ⟨name, hname⟩ := Option.isSome_iff_exists.mp hwf
      exact stepReportsFirst_catalog (.inr (.inl hop)) <| deliveredBy_step_of_answers hs
        (hdecode (i := .n2c r.fmt) (by rw [hop]; rfl)) (n2c_answers hs hname r.fmt)
    | codeToName =>
      simp only [Bool.and_eq_true, Option.isSome_iff_exists] at hwf
      obtain ⟨⟨c, hc⟩, z, hz⟩ := hwf
      exact stepReportsFirst_catalog (.inr (.inr hop)) <| deliveredBy_step_of_answers hs
        (hdecode (i := .c2n r.fmt) (by rw [hop]; rfl)) (c2n_answers hs hc hz r.fmt)

end

/-- Settles O16: every operation makes its checks in the order of R172, and the palette lookups go up the
pixels. -/
theorem firstErrorInPriorityIsReported : Obligations.FirstErrorInPriorityIsReported := by
  intro s t ht hundisturbed hwf
  obtain ⟨resp, hresp, hreports⟩ :=
    stepReportsFirst_of_wellFormed (State.serves_of_unchanged ht hundisturbed) hwf
  exact ⟨resp, hresp, hreports.sound, hreports.first, fun i v l he pal hpal k u hindex hout =>
    hreports.firstPixel i v l he k ⟨pal, hpal, u, hindex, hout⟩⟩

end Sys2Proof.Machine
end

section
/-! Resets and changed inputs (70_reset_and_hazards.md R190, R191, R195): what no step and no reset changes,
what a request presented again after a reset is answered, and the step that draws. -/

namespace Sys2Proof.Machine

/-! ## Reset -/

/-- Settles O3: a step idles, or it concludes a transaction, and neither touches the configuration. -/
theorem nothingChangesTheConfiguration : Obligations.NothingChangesTheConfiguration := by
  refine fun s => ⟨s.applyReset_config, fun s' hstep => ?_⟩
  obtain ⟨-, rfl⟩ | hconcludes := step_cases hstep
  · exact s.idle_config
  · obtain ⟨-, -, hconfig⟩ := hconcludes.frame
    exact hconfig

/-- The interface accepts every well-formed request (60_exceptions.md R171). -/
theorem State.present_of_wellFormed (s : State) {r : Request} (hwf : r.wellFormed = true) :
    s.present r = .ok { s with pending := s.pending ++ [⟨r, []⟩] } := by
  rw [State.present, r.missing_eq_none_iff.mpr hwf]

/-- Settles O4: the state before the reset and the one with the request presented again both serve it, under
the same configuration. -/
theorem resetCutsTransactionsShort : Obligations.ResetCutsTransactionsShort := by
  intro s t ht hundisturbed hwf
  have hidle : deliveredBy (step s.applyReset) = none := by
    rw [stepIdlesWithoutATransaction _ s.applyReset_pending, deliveredBy]
  obtain ⟨resp, hresp⟩ := exists_response_of_wellFormed s.config hwf
  have hbefore : deliveredBy (step s) = some resp :=
    hresp s (State.serves_of_unchanged ht hundisturbed) rfl
  refine ⟨s.applyReset_pending, s.applyReset_response, hidle, _,
    s.applyReset.present_of_wellFormed hwf, ?_⟩
  rw [hbefore]
  exact hresp _ ⟨⟨t.request, []⟩, State.current_singleton rfl, rfl, rfl⟩ s.applyReset_config

/-! ## Changed inputs -/

/-- A step draws for a well-formed transaction with a changed input buffer, whatever its command is. -/
theorem step_eq_draw {s : State} {t : Transaction} (ht : s.current = some t)
    (hwf : t.request.wellFormed = true) (hchanged : t.changed ≠ []) : step s = .next s.draw := by
  obtain ⟨res, hres⟩ := step_settles s.config t.request
  rw [hres s t ht rfl rfl, t.request.missing_eq_none_iff.mpr hwf]
  exact if_pos (Transaction.disturbed_eq_true_iff.mpr hchanged)

/-- Settles O9: the step is a draw, and for a decoded instruction the step runs it. -/
theorem changedInputsDrawTheResponse : Obligations.ChangedInputsDrawTheResponse := by
  refine fun s t ht hwf hchanged => ⟨⟨s.draw, step_eq_draw ht hwf hchanged, s.draw_response, s.draw_draws,
    s.draw_pending, s.draw_config, s.draw_order⟩, fun i hdecode => ?_⟩
  exact (stepRunsTheDecodedInstruction s t i ht hdecode).symm

end Sys2Proof.Machine
end
